-- ==== Sys2Proof/Word.lean ====
section
/-! DEFINITION. The core's words, bytes and groups of four words (00_scope.md R8, R10; 10_state.md R26). -/

namespace Sys2Proof

/-- A datapath word: 32 bits, unsigned (R8, R10). -/
abbrev Word := BitVec 32

/-- A byte: 8 bits, unsigned (R10). -/
abbrev Byte := BitVec 8

/-- Four like things, numbered 0 to 3: the working words `K[0..3]` and `X[0..3]`, the vector registers `V[0..3]`,
the four lanes of one vector register (R23, R24, R26). -/
structure Quad (α : Type) where
  w0 : α
  w1 : α
  w2 : α
  w3 : α
  deriving DecidableEq, Repr

/-- A vector register: 128 bits as four 32-bit lanes, lane `l` the `l`-th component (R26). -/
abbrev Vec := Quad Word

end Sys2Proof
end

