-- ==== Sys2Proof/Config.lean ====
section
/-! DEFINITION. The core's parameters: those the source fixes (00_scope.md R8) and those a platform chooses (R9). -/

namespace Sys2Proof

/-- Length of a MasterKey in bytes (R8). -/
def keyBytes : Nat := 16

/-- Length of a Block in bytes (R8). -/
def blockBytes : Nat := 16

/-- Length of a BatchBlock in bytes (R8). -/
def batchBytes : Nat := 64

/-- Rounds of a block transform, and sub-steps of the key schedule (R8). -/
def rounds : Nat := 32

/-- The largest payload the 8-bit LEN field can announce (30_encoding.md R81, R82). -/
def maxPayload : Nat := 255

/-- Direction of a transform (R18): round keys ascending or descending. -/
inductive Dir where
  | enc
  | dec
  deriving DecidableEq, Repr

/-- The platform's capability set `CAP`, four bits: VA0, VA1, VA2 at 0 to 2 and BCR at 3 (10_state.md R27). -/
abbrev CapSet := BitVec 4

/-- The one capability set that selects the accelerated path, `0b1111` (44_vector_engine.md R172). -/
def allCaps : CapSet := 0b1111#4

/-- What the platform fixes for the life of one core (R9). No step changes it (70_reset_and_hazards.md R277), and it
is part of the state so that a claim is made for every value of it. -/
structure Config where
  /-- `CAP`, the capability set the platform holds (10_state.md R27). -/
  cap : CapSet
  /-- `HAS_DEC4`: whether SM4.DEC4 exists (92_eei_decisions.md D6). -/
  hasDec4 : Bool
  /-- `CAP_CACHED`: whether the answer of the capability query is cached (10_state.md R28). -/
  capCached : Bool
  deriving DecidableEq, Repr

end Sys2Proof
end

