-- ==== Sys2Proof/Syntax.lean ====
section
/-! DEFINITION. The five commands of the core (30_encoding.md R80, R81, R84), one constructor a row of
spec/opcode_table.json. A command is its operation and its payload `IN`; LEN is the payload's length. -/

namespace Sys2Proof

/-- A command `(op, IN)` (R81). The payload may have any length the host presents: a wrong one is answered by the size
validator, never by the decoder (R89). -/
inductive Instr where
  /-- SM4.SETKEY: construction from a MasterKey (41_key_schedule.md R126). -/
  | setkey (payload : List Byte)
  /-- SM4.ENC: encrypt one block (43_scalar_engine.md R155). -/
  | enc (payload : List Byte)
  /-- SM4.DEC: decrypt one block (43_scalar_engine.md R156). -/
  | dec (payload : List Byte)
  /-- SM4.ENC4: encrypt a batch of four blocks (44_vector_engine.md R182). -/
  | enc4 (payload : List Byte)
  /-- SM4.DEC4: decrypt a batch of four blocks (44_vector_engine.md R183). -/
  | dec4 (payload : List Byte)
  deriving DecidableEq, Repr

/-- The payload `IN` of a command. -/
def Instr.payload : Instr → List Byte
  | .setkey p => p
  | .enc p => p
  | .dec p => p
  | .enc4 p => p
  | .dec4 p => p

/-- Whether the command is one of the four transforms, which need an instance (60_exceptions.md R246). -/
def Instr.isTransform : Instr → Bool
  | .setkey _ => false
  | .enc _ => true
  | .dec _ => true
  | .enc4 _ => true
  | .dec4 _ => true

end Sys2Proof
end

