-- ==== Sys2Proof/WellFormed.lean ====
section
/-! DEFINITION. What a command must satisfy to be presentable to the core. -/

namespace Sys2Proof

/-- A command is presentable when its payload fits the 8-bit LEN field (30_encoding.md R81: `0 <= len(IN) <= 255`). This
is the one check there is: a payload of a wrong length is still a command (R89). -/
abbrev WellFormed (i : Instr) : Prop := i.payload.length ≤ maxPayload

end Sys2Proof
end

