-- ==== Sys2Proof/Decode.lean ====
section
/-! DEFINITION. Decoding a command from its bytes and encoding it (30_encoding.md R82, R84, R88 to R90). -/

namespace Sys2Proof

/-- What a byte string begins with. -/
inductive Decoded where
  /-- A command, and the bytes after it. -/
  | command (i : Instr) (rest : List Byte)
  /-- A header whose OP is reserved, and the bytes after its LEN payload bytes, which are discarded (R88). -/
  | reserved (op : Byte) (rest : List Byte)
  /-- Fewer than two header bytes, or fewer payload bytes than LEN announces: no command was presented. -/
  | incomplete
  deriving DecidableEq, Repr

/-- Split off one command's frame: OP, the LEN payload bytes, and the bytes after them (R82: OP, then LEN, then IN). -/
def splitFrame : List Byte → Option (Byte × List Byte × List Byte)
  | op :: len :: rest =>
    if len.toNat ≤ rest.length then some (op, rest.take len.toNat, rest.drop len.toNat) else none
  | _ => none

/-- The command OP selects, if it is not reserved (R84). LEN takes no part. -/
def selectOp (op : Byte) (payload : List Byte) : Option Instr :=
  match op.toNat with
  | 0x01 => some (.setkey payload)
  | 0x02 => some (.enc payload)
  | 0x03 => some (.dec payload)
  | 0x04 => some (.enc4 payload)
  | 0x05 => some (.dec4 payload)
  | _ => none

/-- Read one command from the front of a byte string. Total: every byte string is a command, a reserved OP or
incomplete. -/
def decode (bytes : List Byte) : Decoded :=
  match splitFrame bytes with
  | none => .incomplete
  | some (op, payload, rest) =>
    match selectOp op payload with
    | none => .reserved op rest
    | some i => .command i rest

/-- The OP value of a command (R84). -/
def Instr.opcode : Instr → Byte
  | .setkey _ => 0x01
  | .enc _ => 0x02
  | .dec _ => 0x03
  | .enc4 _ => 0x04
  | .dec4 _ => 0x05

/-- The bytes of a command in transmission order (R82): OP, LEN, then the payload, first byte first. -/
def encode (i : Instr) : List Byte :=
  i.opcode :: BitVec.ofNat 8 i.payload.length :: i.payload

/-- The `n` bytes of the words of `w`, 16 bits a word and the first word lowest in `w`, each word most significant byte
first (R82: the header is sent OP, then LEN). -/
def wordBytes (w : Nat) : Nat → List Byte
  | 0 => []
  | n + 1 => BitVec.ofNat 8 (w / 256) :: BitVec.ofNat 8 w :: wordBytes (w / 65536) n

/-- The bytes of an instruction whose `nbits` table bits are those of `w`, every later byte zero, up to the longest
command there is (two header bytes and 255 payload bytes). -/
def tableBytes (nbits w : Nat) : List Byte :=
  (wordBytes (w % 2 ^ nbits) ((nbits + 15) / 16) ++ List.replicate (2 + maxPayload) 0).take (2 + maxPayload)

/-- Exactly the bytes of the one command at the front of `tableBytes`: its header and the LEN bytes after it. -/
def tableCommand (nbits w : Nat) : List Byte :=
  let bytes := tableBytes nbits w
  bytes.take (2 + (bytes.getD 1 0).toNat)

/-- The command the decoder reads from a table word. -/
def decodeTableWord (nbits w : Nat) : Option Instr :=
  match decode (tableBytes nbits w) with
  | .command i _ => some i
  | .reserved _ _ => none
  | .incomplete => none

end Sys2Proof
end

