-- ==== Sys2Proof/Machine/State.lean ====
section
/-! DEFINITION. The state of the core as plain data (10_state.md R20 to R34), the responses it gives, the moves of its
host, the ways a step can stop, and the state right after reset. -/

namespace Sys2Proof.Machine

/-- A response (30_encoding.md R81, R83, R85). -/
inductive Response where
  /-- The command ended normally, with the payload `OUT`. -/
  | ok (out : List Byte)
  /-- Key length other than `expected` (60_exceptions.md R241). -/
  | invalidKeySize (expected : Nat)
  /-- Block or batch length other than `expected` (R242). -/
  | invalidBlockSize (expected : Nat)
  /-- A transform while the slot holds no Cipher instance (R246). -/
  | noKey
  /-- A reserved OP (R247). -/
  | illegalCommand
  deriving DecidableEq, Repr

/-- One move of the host (00_scope.md R7). DESIGN CHOICE (log 1): the moves are plain data in the state. -/
inductive HostMove where
  /-- Present one command, as its bytes in transmission order (30_encoding.md R82). -/
  | command (bytes : List Byte)
  /-- Assert reset between commands (70_reset_and_hazards.md R270). -/
  | reset
  /-- Present a command and assert reset before its response (R270, 93_implementation_defined.md U10). -/
  | resetDuring (bytes : List Byte)
  deriving DecidableEq, Repr

/-- Stuck states: moves the host does not have. No command of the core raises one. -/
inductive Fault where
  /-- Raised by `accept` when the presented bytes are fewer than their own header announces, so that no command was
  presented. Safe: the model stops where the hardware would wait for the rest. -/
  | incompleteCommand
  /-- Raised by `accept` when bytes are left over after one command: the host presented a new command before the previous
  response (R275, U13: "the host has no such move in the model"). Safe: the model stops. -/
  | commandBeforeResponse
  deriving DecidableEq, Repr

/-- Commands to which the model gives no meaning. -/
inductive Refusal where
  /-- Answered by `exec` for an instruction not modelled yet. Safe: nothing is claimed of it. -/
  | notModelled (mnemonic : String)
  /-- Answered by the batch commands when a stale `CAP_CACHE` selects the accelerated path on a platform whose `CAP` lacks
  a capability (93_implementation_defined.md U6, 70_reset_and_hazards.md R277: "no defined behaviour"). Safe: nothing is
  claimed of it, and no run from reset reaches it. -/
  | staleCapability
  deriving DecidableEq, Repr

/-- The whole state of the core (R20), with the host's side of the interface: the moves it has still to make and the
responses it has been given. -/
@[ext]
structure State where
  /-- `KEY_VALID`: the slot holds a Cipher instance (R22). -/
  keyValid : Bool
  /-- `RK[0..31]`, the RoundKeySet (R21). Meaningless while `keyValid` is false: no command then reads it. -/
  rk : Vector Word 32
  /-- `K[0..3]`, the key schedule's rolling words (R24). -/
  k : Quad Word
  /-- `X[0..3]`, the scalar engine's rolling words (R23). -/
  x : Quad Word
  /-- `V[0..3]`, the vector slot registers (R26). -/
  v : Quad Vec
  /-- `RND`, the round counter, 0 to 32 (R25). -/
  rnd : BitVec 6
  /-- `DIR`, the direction of the command (R25). -/
  dir : Dir
  /-- The platform's parameters, `CAP` among them (R27). -/
  cfg : Config
  /-- `CAP_CACHE`: none while invalid, else the cached capability set (R28). -/
  capCache : Option CapSet
  /-- The host's moves still to come, oldest first. -/
  host : List HostMove
  /-- The responses given so far, oldest first. They are the host's (20_memory.md R68); no command reads them. -/
  responses : List Response
  deriving DecidableEq, Repr

/-- Four zero words: the value the model names for a register the spec gives none.
DESIGN CHOICE (log 3). -/
def zeroWords : Quad Word := ⟨0, 0, 0, 0⟩

/-- The core's own registers at reset (R33), beside parameters, host moves and responses that reset does not touch.
KEY_VALID and CAP_CACHE are the spec's values.
DESIGN CHOICE (log 2, log 3): RK, K, X, V and RND are zero and DIR is ENC, where the spec says "unspecified". -/
def resetRegisters (cfg : Config) (host : List HostMove) (responses : List Response) : State :=
  { keyValid := false
    rk := Vector.replicate 32 0
    k := zeroWords
    x := zeroWords
    v := ⟨zeroWords, zeroWords, zeroWords, zeroWords⟩
    rnd := 0
    dir := .enc
    cfg := cfg
    capCache := none
    host := host
    responses := responses }

/-- The parameters of the core `State.reset` is the reset state of. HAS_DEC4 is the spec's default (00_scope.md R9).
DESIGN CHOICE (log 4): every capability is present and the capability query is not cached. -/
def resetConfig : Config := { cap := allCaps, hasDec4 := true, capCached := false }

/-- The core right after reset (R33), idle, with a host that has made no move. -/
def State.reset : State := resetRegisters resetConfig [] []

end Sys2Proof.Machine
end

