-- ==== Sys2Proof/Machine/Ops.lean ====
section
/-! DEFINITION. The operations every command shares: giving a response, ending in an error (60_exceptions.md R251), the
size validator (46_size_validator.md R230), the order of checks (R250), reset (70_reset_and_hazards.md R270) and taking
the host's next move. -/

namespace Sys2Proof.Machine

/-- The outcomes of this core. -/
abbrev Result := Host.Outcome State Fault Refusal

/-- Give the host a response: nothing but the responses given changes. -/
def respond (r : Response) (s : State) : State := { s with responses := s.responses ++ [r] }

/-- End the command with an error. The response carries it and all else is exactly as before the command (R251). -/
def raise (r : Response) (s : State) : Result := .next (respond r s)

/-- End the command normally with the payload `out`. -/
def finish (out : List Byte) (s : State) : Result := .next (respond (.ok out) s)

/-- `VALIDATE`: the error of a command whose payload has the wrong length, none if it passes (R230). -/
def validate : Instr → Option Response
  | .setkey p => if p.length = keyBytes then none else some (.invalidKeySize keyBytes)
  | .enc p => if p.length = blockBytes then none else some (.invalidBlockSize blockBytes)
  | .dec p => if p.length = blockBytes then none else some (.invalidBlockSize blockBytes)
  | .enc4 p => if p.length = batchBytes then none else some (.invalidBlockSize batchBytes)
  | .dec4 p => if p.length = batchBytes then none else some (.invalidBlockSize batchBytes)

/-- Run `body` only if the command's length is right (R231). -/
def validated (i : Instr) (body : State → Result) (s : State) : Result :=
  match validate i with
  | some r => raise r s
  | none => body s

/-- The checks of a transform command before its work, first failure wins: an instance, then the length (R250).
DESIGN CHOICE (log 6): without an instance the model answers NoKey, as the core does, where it might refuse. -/
def transform (i : Instr) (body : State → Result) (s : State) : Result :=
  if s.keyValid then validated i body s else raise .noKey s

/-- `step` done `n` times. -/
def repeatStep (step : State → State) : Nat → State → State
  | 0, s => s
  | n + 1, s => repeatStep step n (step s)

/-- The reset event: every register takes its reset value; the platform's parameters, the host's further moves and the
responses already given are not the core's to lose (R270). -/
def resetEvent (s : State) : State := resetRegisters s.cfg s.host s.responses

/-- What the host's next move asks of the core. -/
inductive Accepted where
  /-- The host makes no move: the core is idle (R271). -/
  | idle
  /-- A command to carry out, in the state with the move taken. -/
  | run (i : Instr) (s : State)
  /-- A move whose whole effect is the state given: a reset, or a reserved OP and its response. -/
  | done (s : State)
  /-- A move the host does not have. -/
  | stuck (f : Fault)
  deriving DecidableEq, Repr

/-- Take a presented command from its bytes. A reserved OP is answered IllegalCommand, its payload discarded and no state
changed (30_encoding.md R88, 60_exceptions.md R247).
DESIGN CHOICE (log 6, log 7): the model answers where it might refuse, and stops on the moves a host does not have. -/
def acceptCommand (bytes : List Byte) (s : State) : Accepted :=
  match decode bytes with
  | .command i [] => .run i s
  | .reserved _ [] => .done (respond .illegalCommand s)
  | .incomplete => .stuck .incompleteCommand
  | .command _ (_ :: _) => .stuck .commandBeforeResponse
  | .reserved _ (_ :: _) => .stuck .commandBeforeResponse

/-- Take the host's next move. A reset during a command abandons it without a response (R270). -/
def accept (s : State) : Accepted :=
  match s.host with
  | [] => .idle
  | .command bytes :: rest => acceptCommand bytes { s with host := rest }
  | .reset :: rest => .done (resetEvent { s with host := rest })
  | .resetDuring _ :: rest => .done (resetEvent { s with host := rest })

/-- The host's next move is to present the bytes `bytes`; its other moves stay as they are. -/
def presentNext (bytes : List Byte) (s : State) : State := { s with host := .command bytes :: s.host }

end Sys2Proof.Machine
end

