-- ==== Sys2Proof/Machine/Operands.lean ====
section
/-! DEFINITION. Words from bytes and bytes from words (00_scope.md R10 to R13, 20_memory.md R51 to R56), the numbering of
registers, lanes and bytes, and the round-key index (43_scalar_engine.md R151). -/

namespace Sys2Proof

/-- The `i`-th of four things. -/
def Quad.get {α : Type} (q : Quad α) (i : Fin 4) : α :=
  match i with
  | 0 => q.w0
  | 1 => q.w1
  | 2 => q.w2
  | 3 => q.w3

/-- Four things with the `i`-th replaced. -/
def Quad.set {α : Type} (q : Quad α) (i : Fin 4) (a : α) : Quad α :=
  match i with
  | 0 => { q with w0 := a }
  | 1 => { q with w1 := a }
  | 2 => { q with w2 := a }
  | 3 => { q with w3 := a }

/-- A function on each of four things. -/
def Quad.map {α β : Type} (f : α → β) (q : Quad α) : Quad β := ⟨f q.w0, f q.w1, f q.w2, f q.w3⟩

/-- A function on corresponding things. -/
def Quad.zipWith {α β γ : Type} (f : α → β → γ) (p : Quad α) (q : Quad β) : Quad γ :=
  ⟨f p.w0 q.w0, f p.w1 q.w1, f p.w2 q.w2, f p.w3 q.w3⟩

/-- `rotl32(w, n)` for `n < 32`: bit `i` of `w` moves to bit `(i + n) mod 32` (R11). -/
def rotl32 (w : Word) (n : Nat) : Word := w <<< n ||| w >>> (32 - n)

/-- `BE32`: a word from four bytes, the first one most significant (R13). -/
def be32 (b0 b1 b2 b3 : Byte) : Word :=
  b0.setWidth 32 <<< 24 ||| b1.setWidth 32 <<< 16 ||| b2.setWidth 32 <<< 8 ||| b3.setWidth 32

/-- Byte `m` of a word, byte 0 most significant (R13). -/
def wordByte (w : Word) (m : Nat) : Byte := (w >>> (24 - 8 * m)).setWidth 8

/-- `UNBE32`: the four bytes of a word in buffer order (R13). -/
def unbe32 (w : Word) : List Byte := [wordByte w 0, wordByte w 1, wordByte w 2, wordByte w 3]

/-- Word `j` of a byte string: `BE32(P[4j], P[4j+1], P[4j+2], P[4j+3])` (20_memory.md R51). Every use is within the
string, whose length was checked before. DESIGN CHOICE (log 15): beyond its end a string reads as zeros. -/
def wordAt (p : List Byte) (j : Nat) : Word :=
  be32 (p.getD (4 * j) 0) (p.getD (4 * j + 1) 0) (p.getD (4 * j + 2) 0) (p.getD (4 * j + 3) 0)

/-- `WORDS4`: the four words of a 16-byte string (R13, R52). -/
def words4 (p : List Byte) : Quad Word := ⟨wordAt p 0, wordAt p 1, wordAt p 2, wordAt p 3⟩

/-- `BYTES16`: the 16 bytes of four words (R13). -/
def bytes16 (w0 w1 w2 w3 : Word) : List Byte := unbe32 w0 ++ unbe32 w1 ++ unbe32 w2 ++ unbe32 w3

/-- Block `l` of a batch: bytes `16l` to `16l + 15` (R54). -/
def blockAt (p : List Byte) (l : Nat) : List Byte := (p.drop (blockBytes * l)).take blockBytes

/-- Byte `p` of a vector register: byte `p mod 4`, most significant first, of lane `p div 4` (R56). -/
def vecByte (v : Vec) (p : Nat) : Byte := wordByte (v.get (Fin.ofNat 4 (p / 4))) (p % 4)

/-- A vector register from its sixteen bytes (R56). -/
def vecOfBytes (f : Nat → Byte) : Vec :=
  ⟨be32 (f 0) (f 1) (f 2) (f 3), be32 (f 4) (f 5) (f 6) (f 7),
   be32 (f 8) (f 9) (f 10) (f 11), be32 (f 12) (f 13) (f 14) (f 15)⟩

/-- The round or sub-step number a round counter stands at, 0 to 31 (R25). DESIGN CHOICE (log 15): above 31, modulo 32. -/
def roundIndex (rnd : BitVec 6) : Fin 32 := Fin.ofNat 32 rnd.toNat

/-- The register a round updates, `i mod 4` (R124, R152, R179). -/
def target (i : Fin 32) : Fin 4 := Fin.ofNat 4 i.val

/-- `KIDX`: the round key of round `i`, ascending for encryption and descending for decryption (R151). -/
def kidx (i : Fin 32) : Dir → Fin 32
  | .enc => i
  | .dec => 31 - i

end Sys2Proof
end

