-- ==== Sys2Proof/Machine/Sbox.lean ====
section
/-! DEFINITION. The Substitution Table and the byte-wise substitution of a word (40_sbox.md). -/

namespace Sys2Proof

/-- Entry `b` of a 256-byte table printed as 16 rows of 16 bytes: row `b div 16`, column `b mod 16`, column 0 the row's
most significant byte. -/
def tableByte (rows : List (BitVec 128)) (b : Byte) : Byte :=
  (rows.getD (b.toNat / 16) 0 >>> (120 - 8 * (b.toNat % 16))).setWidth 8

/-- The Substitution Table, row by row as R110 prints it. The values are the spec's general knowledge (log 10). -/
def sboxRows : List (BitVec 128) :=
  [0xd690e9fecce13db716b614c228fb2c05#128,
   0x2b679a762abe04c3aa44132649860699#128,
   0x9c4250f491ef987a33540b43edcfac62#128,
   0xe4b31ca9c908e89580df94fa758f3fa6#128,
   0x4707a7fcf37317ba83593c19e6854fa8#128,
   0x686b81b27164da8bf8eb0f4b70569d35#128,
   0x1e240e5e6358d1a225227c3b01217887#128,
   0xd40046579fd327524c3602e7a0c4c89e#128,
   0xeabf8ad240c738b5a3f7f2cef96115a1#128,
   0xe0ae5da49b341a55ad933230f58cb1e3#128,
   0x1df6e22e8266ca60c02923ab0d534e6f#128,
   0xd5db3745defd8e2f03ff6a726d6c5b51#128,
   0x8d1baf92bbddbc7f11d95c411f105ad8#128,
   0x0ac13188a5cd7bbd2d74d012b8e5b4b0#128,
   0x8969974a0c96777e65b9f109c56ec684#128,
   0x18f07dec3adc4d2079ee5f3ed7cb3948#128]

/-- `SBOX`: the value of the Substitution Table on a byte (R110). -/
def sbox (b : Byte) : Byte := tableByte sboxRows b

/-- `TAU`: the Substitution Table on each byte of a word, in place (R113). -/
def tau (w : Word) : Word :=
  be32 (sbox (wordByte w 0)) (sbox (wordByte w 1)) (sbox (wordByte w 2)) (sbox (wordByte w 3))

end Sys2Proof
end

