-- ==== Sys2Proof/Machine/KeySchedule.lean ====
section
/-! DEFINITION. The key-schedule transform, the key schedule and SM4.SETKEY (41_key_schedule.md). -/

namespace Sys2Proof

/-- `LK`: key-schedule diffusion, the word and its rotations by 13 and 23 (R120). -/
def keyDiffuse (b : Word) : Word := b ^^^ rotl32 b 13 ^^^ rotl32 b 23

/-- `TK`: the key-schedule transform (R121). -/
def keyT (w : Word) : Word := keyDiffuse (tau w)

/-- `FK[0..3]`, the system constants (R122). The values are the spec's general knowledge (log 10). -/
def fk : Quad Word := ⟨0xa3b1bac6, 0x56aa3350, 0x677d9197, 0xb27022dc⟩

/-- `CK[0..31]`, the round constants, as R123 lists them. The values are the spec's general knowledge (log 10). -/
def ck : Vector Word 32 :=
  #v[0x00070e15, 0x1c232a31, 0x383f464d, 0x545b6269,
     0x70777e85, 0x8c939aa1, 0xa8afb6bd, 0xc4cbd2d9,
     0xe0e7eef5, 0xfc030a11, 0x181f262d, 0x343b4249,
     0x50575e65, 0x6c737a81, 0x888f969d, 0xa4abb2b9,
     0xc0c7ced5, 0xdce3eaf1, 0xf8ff060d, 0x141b2229,
     0x30373e45, 0x4c535a61, 0x686f767d, 0x848b9299,
     0xa0a7aeb5, 0xbcc3cad1, 0xd8dfe6ed, 0xf4fb0209,
     0x10171e25, 0x2c333a41, 0x484f565d, 0x646b7279]

namespace Machine

/-- Load the rolling words from a MasterKey, word `j` with `FK[j]`, and start the count (R125). -/
def loadKey (key : List Byte) (s : State) : State :=
  { s with k := Quad.zipWith (· ^^^ ·) (words4 key) fk, rnd := 0 }

/-- `KSTEP`: one key-schedule sub-step, number `n = RND`. The three other words are read before `K[j]` is written, and
`RK[n]` takes the new `K[j]` (R124). -/
def kstep (s : State) : State :=
  let n := roundIndex s.rnd
  let j := target n
  let new := s.k.get j ^^^ keyT (s.k.get (j + 1) ^^^ s.k.get (j + 2) ^^^ s.k.get (j + 3) ^^^ ck[n])
  { s with k := s.k.set j new, rk := s.rk.set n new, rnd := s.rnd + 1 }

/-- `KEXPAND`: the whole key schedule, which leaves the 32 round keys in `RK` (R125). -/
def kexpand (key : List Byte) (s : State) : State := repeatStep kstep rounds (loadKey key s)

/-- SM4.SETKEY: construction of the Cipher instance (R126). -/
def execSetkey (p : List Byte) (s : State) : Result :=
  validated (.setkey p) (fun s => finish [] { kexpand p s with keyValid := true }) s

end Machine

end Sys2Proof
end

