-- ==== Sys2Proof/Machine/RoundTransform.lean ====
section
/-! DEFINITION. The round transform (42_round_transform.md). -/

namespace Sys2Proof

/-- `L`: round diffusion, the word and its rotations by 2, 10, 18 and 24 (R140). -/
def diffuse (b : Word) : Word := b ^^^ rotl32 b 2 ^^^ rotl32 b 10 ^^^ rotl32 b 18 ^^^ rotl32 b 24

/-- `T`: the round transform (R141). -/
def roundT (w : Word) : Word := diffuse (tau w)

end Sys2Proof
end

