-- ==== Sys2Proof/Machine/ScalarEngine.lean ====
section
/-! DEFINITION. The scalar block engine, SM4.ENC and SM4.DEC (43_scalar_engine.md). -/

namespace Sys2Proof.Machine

/-- Load the rolling words from a block, start the count and fix the direction (R150). -/
def loadBlock (b : List Byte) (d : Dir) (s : State) : State :=
  { s with x := words4 b, rnd := 0, dir := d }

/-- `RSTEP`: one round, number `i = RND`, in the direction `DIR` (R152). -/
def rstep (s : State) : State :=
  let i := roundIndex s.rnd
  let t := target i
  let u := s.x.get (t + 1) ^^^ s.x.get (t + 2) ^^^ s.x.get (t + 3) ^^^ s.rk[kidx i s.dir]
  { s with x := s.x.set t (s.x.get t ^^^ roundT u), rnd := s.rnd + 1 }

/-- The output block: the four final words in reverse order (R153). -/
def emitBlock (s : State) : List Byte := bytes16 s.x.w3 s.x.w2 s.x.w1 s.x.w0

/-- `CRYPT1` up to its output: the state after the 32 rounds on the block `b` (R154). -/
def runBlock (b : List Byte) (d : Dir) (s : State) : State := repeatStep rstep rounds (loadBlock b d s)

/-- `CRYPT1` as a whole command's work: run the block and answer its output (R154). -/
def crypt1 (b : List Byte) (d : Dir) (s : State) : Result :=
  let t := runBlock b d s
  finish (emitBlock t) t

/-- SM4.ENC: encrypt one block (R155). -/
def execEnc (p : List Byte) (s : State) : Result := transform (.enc p) (crypt1 p .enc) s

/-- SM4.DEC: decrypt one block (R156). -/
def execDec (p : List Byte) (s : State) : Result := transform (.dec p) (crypt1 p .dec) s

end Sys2Proof.Machine
end

