-- ==== Sys2Proof/Machine/VectorSbox.lean ====
section
/-! DEFINITION. Substitution through the surrogate cipher and diffusion by shuffle and shift, on the sixteen bytes and
four lanes of a vector (45_vector_sbox.md). Every number is the spec's general knowledge (log 10). -/

namespace Sys2Proof

/-- The surrogate cipher's S-box, row by row as R201 prints it. -/
def aesRows : List (BitVec 128) :=
  [0x637c777bf26b6fc53001672bfed7ab76#128,
   0xca82c97dfa5947f0add4a2af9ca472c0#128,
   0xb7fd9326363ff7cc34a5e5f171d83115#128,
   0x04c723c31896059a071280e2eb27b275#128,
   0x09832c1a1b6e5aa0523bd6b329e32f84#128,
   0x53d100ed20fcb15b6acbbe394a4c58cf#128,
   0xd0efaafb434d338545f9027f503c9fa8#128,
   0x51a3408f929d38f5bcb6da2110fff3d2#128,
   0xcd0c13ec5f974417c4a77e3d645d1973#128,
   0x60814fdc222a908846eeb814de5e0bdb#128,
   0xe0323a0a4906245cc2d3ac629195e479#128,
   0xe7c8376d8dd54ea96c56f4ea657aae08#128,
   0xba78252e1ca6b4c6e8dd741f4bbd8b8a#128,
   0x703eb5664803f60e613557b986c11d9e#128,
   0xe1f8981169d98e949b1e87e9ce5528df#128,
   0x8ca1890dbfe6426841992d0fb054bb16#128]

/-- `AES_S`: the surrogate cipher's byte substitution (R201). -/
def aesS (b : Byte) : Byte := tableByte aesRows b

/-- An affine byte map by its constant and the images of the bits, the bit of weight 1 first: the constant XOR the images
of the bits that are set (R205, R206). -/
def affine (c : Byte) (cols : List Byte) (b : Byte) : Byte :=
  (cols.zipIdx.map fun col => if b.getLsbD col.2 then col.1 else 0).foldl (· ^^^ ·) c

/-- `A1`: into the surrogate's representation (R205). -/
def a1 (b : Byte) : Byte := affine 0x01 [0x06, 0x73, 0xe5, 0x56, 0xa2, 0x49, 0x09, 0x12] b

/-- `A2`: back from the surrogate's representation (R206). -/
def a2 (b : Byte) : Byte := affine 0x34 [0x3c, 0xa9, 0xfa, 0xb6, 0xdc, 0xaf, 0xdd, 0xbf] b

/-- A byte map on each of the sixteen bytes of a vector. -/
def vecMapBytes (f : Byte → Byte) (v : Vec) : Vec := vecOfBytes fun p => f (vecByte v p)

/-- A shuffle: byte `p` of the result is byte `index p` of the vector. -/
def vecShuffle (index : Nat → Nat) (v : Vec) : Vec := vecOfBytes fun p => vecByte v (index p)

/-- `VOR`: bitwise or (R211). -/
def vor (a b : Vec) : Vec := Quad.zipWith (· ||| ·) a b

/-- `VXOR`: bitwise exclusive or (R211). -/
def vxor (a b : Vec) : Vec := Quad.zipWith (· ^^^ ·) a b

/-- `VSHL`: each lane shifted left, zeros entering below (R211). -/
def vshl (v : Vec) (n : Nat) : Vec := Quad.map (fun lane : Word => lane <<< n) v

/-- `VSHR`: each lane shifted right, zeros entering at the top: the logical shift (R211, 90_conflicts.md C3). -/
def vshr (v : Vec) (n : Nat) : Vec := Quad.map (fun lane : Word => lane >>> n) v

/-- `ZERO128`: the all-zero sub-key (R200). -/
def zero128 : Vec := ⟨0, 0, 0, 0⟩

/-- `SR`: the source byte of byte `p` in the surrogate's row shift (R202). -/
def sr (p : Nat) : Nat := p % 4 + 4 * ((p / 4 + p % 4) % 4)

/-- `ISR`: the source byte of byte `p` in the pre-permutation that cancels the row shift (R204). -/
def isr (p : Nat) : Nat := p % 4 + 4 * ((p / 4 + 4 - p % 4) % 4)

/-- `VAFF1`: `A1` on each byte (R205). -/
def vaff1 (v : Vec) : Vec := vecMapBytes a1 v

/-- `VISR`: the byte pre-permutation (R204, 90_conflicts.md C4). -/
def visr (v : Vec) : Vec := vecShuffle isr v

/-- `BCFR`: the surrogate's final-round primitive: row shift and byte substitution, then the sub-key (R202). -/
def bcfr (v key : Vec) : Vec := vxor (vecMapBytes aesS (vecShuffle sr v)) key

/-- `VAFF2`: `A2` on each byte (R206). -/
def vaff2 (v : Vec) : Vec := vecMapBytes a2 v

/-- `VSUB`: the Substitution Table on all sixteen bytes, through the surrogate cipher (R200). -/
def vsub (u : Vec) : Vec := vaff2 (bcfr (visr (vaff1 u)) zero128)

/-- `VROTB`: each lane rotated left by 8, 16 or 24 bits, as a byte shuffle within the lane (R210). -/
def vrotb (v : Vec) (n : Nat) : Vec := vecShuffle (fun p => 4 * (p / 4) + (p % 4 + n / 8) % 4) v

/-- `VL`: the diffusion `L` on four lanes: `Y` by byte rotations, `Y2` its rotation by the residual 2 bits (R212). -/
def vl (s : Vec) : Vec :=
  let y := vxor (vxor s (vrotb s 8)) (vrotb s 16)
  let y2 := vor (vshl y 2) (vshr y 30)
  vxor (vxor s y2) (vrotb s 24)

end Sys2Proof
end

