-- ==== Sys2Proof/Machine/VectorEngine.lean ====
section
/-! DEFINITION. The vector block engine, SM4.ENC4 and SM4.DEC4, on both of its paths (44_vector_engine.md). -/

namespace Sys2Proof.Machine

/-- The answer of `CAPQ`: the cached capability set if the query is cached and answered before, else `CAP` (R171). -/
def capAnswer (s : State) : CapSet :=
  if s.cfg.capCached then s.capCache.getD s.cfg.cap else s.cfg.cap

/-- `CAPQ`'s effect: a cached query keeps its answer (R171). -/
def capq (s : State) : State :=
  if s.cfg.capCached then { s with capCache := some (capAnswer s) } else s

/-- `VLOAD`: lane `l` of `V[j]` is word `j` of block `l` (R174). -/
def vload (p : List Byte) : Quad Vec :=
  ⟨⟨wordAt p 0, wordAt p 4, wordAt p 8, wordAt p 12⟩, ⟨wordAt p 1, wordAt p 5, wordAt p 9, wordAt p 13⟩,
   ⟨wordAt p 2, wordAt p 6, wordAt p 10, wordAt p 14⟩, ⟨wordAt p 3, wordAt p 7, wordAt p 11, wordAt p 15⟩⟩

/-- `VBCAST`: one word in all four lanes (R175). -/
def vbcast (k : Word) : Vec := ⟨k, k, k, k⟩

/-- `VT`: the round function on four lanes (R177). -/
def vt (u : Vec) : Vec := vl (vsub u)

/-- Load a batch, start the count and fix the direction (R174, R181). -/
def loadBatch (p : List Byte) (d : Dir) (s : State) : State :=
  { s with v := vload p, rnd := 0, dir := d }

/-- `VRSTEP`: one vector round, number `i = RND`, in the direction `DIR` (R176, R179). -/
def vrstep (s : State) : State :=
  let i := roundIndex s.rnd
  let t := target i
  let others := vxor (vxor (s.v.get (t + 1)) (s.v.get (t + 2))) (s.v.get (t + 3))
  let u := vxor others (vbcast s.rk[kidx i s.dir])
  { s with v := s.v.set t (vxor (s.v.get t) (vt u)), rnd := s.rnd + 1 }

/-- Block `l` of `VSTORE`: lane `l` of the four registers in reverse order (R180). -/
def emitLane (s : State) (l : Fin 4) : List Byte :=
  bytes16 (s.v.w3.get l) (s.v.w2.get l) (s.v.w1.get l) (s.v.w0.get l)

/-- `VSTORE`: the 64 output bytes (R180). -/
def emitBatch (s : State) : List Byte := emitLane s 0 ++ emitLane s 1 ++ emitLane s 2 ++ emitLane s 3

/-- `CRYPT4_ACC` up to its output: the state after the 32 vector rounds (R181). -/
def runBatch (p : List Byte) (d : Dir) (s : State) : State := repeatStep vrstep rounds (loadBatch p d s)

/-- `CRYPT4_ACC`: the accelerated path (R181). -/
def crypt4Acc (p : List Byte) (d : Dir) (s : State) : Result :=
  let t := runBatch p d s
  finish (emitBatch t) t

/-- `CRYPT4_FALLBACK`: four scalar transforms in order, their outputs joined (R173). -/
def crypt4Fallback (p : List Byte) (d : Dir) (s : State) : Result :=
  let t0 := runBlock (blockAt p 0) d s
  let t1 := runBlock (blockAt p 1) d t0
  let t2 := runBlock (blockAt p 2) d t1
  let t3 := runBlock (blockAt p 3) d t2
  finish (emitBlock t0 ++ emitBlock t1 ++ emitBlock t2 ++ emitBlock t3) t3

/-- `CRYPT4` after the capability query, which selects the path (R172, R181). An answer of all capabilities that `CAP`
does not bear out has no meaning in the spec (93_implementation_defined.md U6).
DESIGN CHOICE (log 8): it is refused by name. -/
def crypt4 (p : List Byte) (d : Dir) (s : State) : Result :=
  if capAnswer s = allCaps then
    if s.cfg.cap = allCaps then crypt4Acc p d (capq s) else .refused .staleCapability
  else crypt4Fallback p d (capq s)

/-- SM4.ENC4: encrypt a batch (R182). -/
def execEnc4 (p : List Byte) (s : State) : Result := transform (.enc4 p) (crypt4 p .enc) s

/-- SM4.DEC4: decrypt a batch; a core without it answers IllegalCommand (R183).
DESIGN CHOICE (log 6): the model answers where it might refuse. -/
def execDec4 (p : List Byte) (s : State) : Result :=
  if s.cfg.hasDec4 then transform (.dec4 p) (crypt4 p .dec) s else raise .illegalCommand s

end Sys2Proof.Machine
end

