-- ==== Sys2Proof/Machine/Dispatch.lean ====
section
/-! DEFINITION. One arm per command (30_encoding.md R84), each a direct call of its meaning. -/

namespace Sys2Proof.Machine

def exec (i : Instr) (s : State) : Host.Outcome State Fault Refusal :=
  match i with
  | .setkey p => Sys2Proof.Machine.execSetkey p s
  | .enc p => Sys2Proof.Machine.execEnc p s
  | .dec p => Sys2Proof.Machine.execDec p s
  | .enc4 p => Sys2Proof.Machine.execEnc4 p s
  | .dec4 p => Sys2Proof.Machine.execDec4 p s

end Sys2Proof.Machine
end

