-- ==== Sys2Proof/Machine/Step.lean ====
section
/-! DEFINITION. One step of the machine: the host's next move, answered (00_scope.md R6, 20_memory.md R62). -/

namespace Sys2Proof.Machine

/-- One step. With no move of the host the core stays as it is (70_reset_and_hazards.md R271). -/
def step (s : State) : Host.Outcome State Fault Refusal :=
  match accept s with
  | .idle => .next s
  | .run i t => exec i t
  | .done t => .next t
  | .stuck f => .fault f

/-- The state whose next step carries out the command of a table word: the host's next move presents its bytes. -/
def State.withFetchWord (s : State) (nbits w : Nat) : State := presentNext (tableCommand nbits w) s

end Sys2Proof.Machine
end

