-- ==== Sys2Proof/Machine/Algebra.lean ====
section
/-! DEFINITION. The algebraic forms the spec gives beside its tables, as cross-checks: of the Substitution Table
(40_sbox.md R112), of the surrogate's S-box (45_vector_sbox.md R201), of the affine maps by nibble tables (R205 to R207)
and of the vector diffusion by other arrangements (R213). No command uses them. Every number is the spec's general knowledge (log 10). -/

namespace Sys2Proof

/-- Rotation of a byte to the left, for `n < 8` (R112). -/
def rotl8 (b : Byte) (n : Nat) : Byte := b <<< n ||| b >>> (8 - n)

/-- The parity of an 8-bit number: whether an odd number of its bits is set, by folding its halves together (R112). -/
def parity (b : Nat) : Bool :=
  let b4 := b ^^^ b >>> 4
  let b2 := b4 ^^^ b4 >>> 2
  (b2 ^^^ b2 >>> 1).testBit 0

/-- The product of two polynomials over GF(2), bit `i` the coefficient of `x^i`: the sum of `a * x^i` over the bits `i`
set in `b`. -/
def polyMul (a b : Nat) : Nat :=
  (List.range 8).foldl (fun acc i => if b.testBit i then acc ^^^ a <<< i else acc) 0

/-- The remainder of a product of two bytes modulo a polynomial of degree 8: take away multiples of it from the top. -/
def polyMod (modulus p : Nat) : Nat :=
  (List.range 7).foldl (fun acc i => if acc.testBit (14 - i) then acc ^^^ modulus <<< (6 - i) else acc) p

/-- Multiplication in GF(2^8) modulo the polynomial given. -/
def gfMul (modulus : Nat) (a b : Byte) : Byte := BitVec.ofNat 8 (polyMod modulus (polyMul a.toNat b.toNat))

/-- The multiplicative inverse in GF(2^8), zero for zero: the 254th power, as the product of the 2nd, 4th, … 128th. -/
def gfInv (m : Nat) (v : Byte) : Byte :=
  ((List.range 7).foldl (fun (acc : Byte × Byte) _ =>
    (gfMul m acc.1 (gfMul m acc.2 acc.2), gfMul m acc.2 acc.2)) (1, v)).1

/-- `A`: the affine wrapper's matrix, bit `i` the parity of `rotl8(0xa7, i) & v` (R112). -/
def sboxMatrix (v : Byte) : Byte :=
  BitVec.ofNat 8 ((List.range 8).foldl (fun acc i =>
    if parity ((rotl8 0xa7 i).toNat &&& v.toNat) then acc + 2 ^ i else acc) 0)

/-- The algebraic form of the Substitution Table, modulus 0x1f5 (R112). -/
def sboxAlgebraic (b : Byte) : Byte := sboxMatrix (gfInv 0x1f5 (sboxMatrix b ^^^ 0xd3)) ^^^ 0xd3

/-- The algebraic form of the surrogate's S-box, modulus 0x11b (R201). -/
def aesAlgebraic (b : Byte) : Byte :=
  let v := gfInv 0x11b b
  v ^^^ rotl8 v 1 ^^^ rotl8 v 2 ^^^ rotl8 v 3 ^^^ rotl8 v 4 ^^^ 0x63

/-- An affine byte map by its two 16-entry nibble tables: `AL[b & 0x0f] ^ AH[b >> 4]` (R207). -/
def nibbleMap (low high : BitVec 128) (b : Byte) : Byte :=
  tableByte [low] (b &&& 0x0f) ^^^ tableByte [high] (b >>> 4)

/-- `A1` by its nibble tables `A1L` and `A1H` (R205). -/
def a1Nibbles (b : Byte) : Byte :=
  nibbleMap 0x01077274e4e2979157512422b2b4c1c7 0x00a249eb09ab40e212b05bf91bb952f0 b

/-- `A2` by its nibble tables `A2L` and `A2H` (R206). -/
def a2Nibbles (b : Byte) : Byte :=
  nibbleMap 0x34089da1cef2675b82be2b177844d1ed 0x00dcaf73dd0172aebf6310cc62becd11 b

/-- `L` with its rotations by 2, 10 and 18 made as one rotation by 2 of what bytewise rotations give: the form R213 derives
`L` from, on one lane. -/
def diffuseFactored (b : Word) : Word := b ^^^ rotl32 (b ^^^ rotl32 b 8 ^^^ rotl32 b 16) 2 ^^^ rotl32 b 24

/-- Rotation of each lane by the residual 2 bits, as a pair of shifts (R212, R213). -/
def vrot2 (v : Vec) : Vec := vor (vshl v 2) (vshr v 30)

/-- The other arrangement R213 names: four separate rotations, each a shuffle and, but for 24, a pair of 2-bit shifts. -/
def vlSeparate (v : Vec) : Vec :=
  vxor (vxor (vxor (vxor v (vrot2 v)) (vrot2 (vrotb v 8))) (vrot2 (vrotb v 16))) (vrotb v 24)

end Sys2Proof
end

