-- ==== Sys2Proof/Machine/Assembler.lean ====
section
/-! DEFINITION. The assembler's text (30_encoding.md R92): a command is its mnemonic and its payload as one hexadecimal
string in buffer order; a response is written as R92 lists it. Text is a list of characters. -/

namespace Sys2Proof

/-- The hexadecimal digits, in order. -/
def hexDigits : List Char := ['0', '1', '2', '3', '4', '5', '6', '7', '8', '9', 'a', 'b', 'c', 'd', 'e', 'f']

/-- A byte string in hexadecimal, two digits a byte, the high one first. -/
def hexText (bytes : List Byte) : List Char :=
  bytes.flatMap fun b => [hexDigits.getD (b.toNat / 16) '0', hexDigits.getD (b.toNat % 16) '0']

/-- The byte string a hexadecimal text stands for, if it is one. -/
def parseHex : List Char → Option (List Byte)
  | [] => some []
  | [_] => none
  | hi :: lo :: rest =>
    match hexDigits.idxOf? hi, hexDigits.idxOf? lo, parseHex rest with
    | some h, some l, some bytes => some (BitVec.ofNat 8 (16 * h + l) :: bytes)
    | _, _, _ => none

/-- The mnemonic of a command (R84). -/
def Instr.mnemonic : Instr → List Char
  | .setkey _ => ['S', 'M', '4', '.', 'S', 'E', 'T', 'K', 'E', 'Y']
  | .enc _ => ['S', 'M', '4', '.', 'E', 'N', 'C']
  | .dec _ => ['S', 'M', '4', '.', 'D', 'E', 'C']
  | .enc4 _ => ['S', 'M', '4', '.', 'E', 'N', 'C', '4']
  | .dec4 _ => ['S', 'M', '4', '.', 'D', 'E', 'C', '4']

/-- The text of a command. DESIGN CHOICE (log 13): an empty payload is written as nothing after the one space. -/
def disassemble (i : Instr) : List Char := i.mnemonic ++ ' ' :: hexText i.payload

/-- The command a mnemonic names. -/
def namedCommand (name : List Char) (payload : List Byte) : Option Instr :=
  [Instr.setkey payload, .enc payload, .dec payload, .enc4 payload, .dec4 payload].find? (·.mnemonic = name)

/-- The command a line of text stands for, if it is one. -/
def assemble (line : List Char) : Option Instr :=
  match parseHex ((line.dropWhile (· ≠ ' ')).drop 1) with
  | some payload => namedCommand (line.takeWhile (· ≠ ' ')) payload
  | none => none

/-- The text of a response. -/
def Machine.responseText : Machine.Response → List Char
  | .ok [] => "OK".toList
  | .ok (b :: out) => "OK ".toList ++ hexText (b :: out)
  | .invalidKeySize n => "InvalidKeySize(".toList ++ (toString n).toList ++ [')']
  | .invalidBlockSize n => "InvalidBlockSize(".toList ++ (toString n).toList ++ [')']
  | .noKey => "NoKey".toList
  | .illegalCommand => "IllegalCommand".toList

end Sys2Proof
end

