-- ==== Sys2Proof/Machine/Flags.lean ====
section
/-! DEFINITION. The core has no condition flags (10_state.md R35). Its status is what a response carries (30_encoding.md
R83, R85) and the one bit KEY_VALID; this file gives the response's bytes. -/

namespace Sys2Proof.Machine

/-- STATUS of a response (R85). -/
def statusCode : Response → Byte
  | .ok _ => 0x00
  | .invalidKeySize _ => 0x01
  | .invalidBlockSize _ => 0x02
  | .noKey => 0x03
  | .illegalCommand => 0x04

/-- The payload of a response: OUT, or the one byte that says which size was expected, or nothing (R83). -/
def responsePayload : Response → List Byte
  | .ok out => out
  | .invalidKeySize expected => [BitVec.ofNat 8 expected]
  | .invalidBlockSize expected => [BitVec.ofNat 8 expected]
  | .noKey => []
  | .illegalCommand => []

/-- The bytes of a response in transmission order: STATUS, RLEN, payload (R83). -/
def encodeResponse (r : Response) : List Byte :=
  statusCode r :: BitVec.ofNat 8 (responsePayload r).length :: responsePayload r

/-- Whether a response is one of the four ways a command can end other than OK (60_exceptions.md R240). -/
def isError : Response → Bool
  | .ok _ => false
  | .invalidKeySize _ => true
  | .invalidBlockSize _ => true
  | .noKey => true
  | .illegalCommand => true

end Sys2Proof.Machine
end

