-- ==== Sys2Proof/Safety.lean ====
section
/-! DEFINITION. The terms claims are made in: the cipher in the sliding form the spec gives for comparison with the
standard (41_key_schedule.md R125, 43_scalar_engine.md R154), which no command uses; the invariant of the machine; and
when two states look alike to the host. -/

namespace Sys2Proof.Safety

open Sys2Proof.Machine

/-- One step of a sliding recurrence on the last four words: `x_{n+4} = x_n ^ f(x_{n+1} ^ x_{n+2} ^ x_{n+3} ^ k)`. -/
def slideStep (f : Word → Word) (q : Quad Word) (k : Word) : Quad Word :=
  ⟨q.w1, q.w2, q.w3, q.w0 ^^^ f (q.w1 ^^^ q.w2 ^^^ q.w3 ^^^ k)⟩

/-- The sliding recurrence over a list of keys or constants, in order. -/
def slide (f : Word → Word) (q : Quad Word) (ks : List Word) : Quad Word := ks.foldl (slideStep f) q

/-- `RK[n]` in the sliding form: the word the recurrence makes in its sub-step `n` (R125). -/
def roundKey (key : List Byte) (n : Nat) : Word :=
  (slide keyT (Quad.zipWith (· ^^^ ·) (words4 key) fk) (ck.toList.take (n + 1))).w3

/-- The RoundKeySet of a MasterKey in the sliding form (R125). -/
def roundKeys (key : List Byte) : Vector Word 32 := Vector.ofFn fun n => roundKey key n.val

/-- The round keys in the order a direction uses them (10_state.md R21). -/
def keysInOrder (rk : Vector Word 32) : Dir → List Word
  | .enc => rk.toList
  | .dec => rk.toList.reverse

/-- `CRYPT1` in the sliding form (R154): the output is `BYTES16(x_35, x_34, x_33, x_32)`. -/
def cipher (rk : Vector Word 32) (d : Dir) (b : List Byte) : List Byte :=
  let q := slide roundT (words4 b) (keysInOrder rk d)
  bytes16 q.w3 q.w2 q.w1 q.w0

/-- Four independent block transforms, joined: the definition of a batch command's result (44_vector_engine.md R170). -/
def cipherBatch (rk : Vector Word 32) (d : Dir) (p : List Byte) : List Byte :=
  cipher rk d (blockAt p 0) ++ cipher rk d (blockAt p 1) ++ cipher rk d (blockAt p 2) ++ cipher rk d (blockAt p 3)

/-- The two batch paths are interchangeable on a batch (44_vector_engine.md R185, R170): both complete, and the states they
leave, the answer included, differ at most in the working registers X and V. -/
def PathsInterchangeable (p : List Byte) (d : Dir) (s : State) : Prop :=
  ∃ t u, crypt4Acc p d s = .next t ∧ crypt4Fallback p d s = .next u ∧ u = { t with x := u.x, v := u.v }

/-- A cached capability answer is the platform's (10_state.md R28). -/
def CacheTruthful (s : State) : Prop := s.capCache = none ∨ s.capCache = some s.cfg.cap

/-- While KEY_VALID is set, RK is some key's RoundKeySet (R22). -/
def KeySound (s : State) : Prop :=
  s.keyValid = true → ∃ key : List Byte, key.length = keyBytes ∧ s.rk = roundKeys key

/-- RND counts 0 to 32 (R25). -/
def CountSound (s : State) : Prop := s.rnd.toNat ≤ rounds

/-- The invariant of the machine. -/
structure Inv (s : State) : Prop where
  cacheTruthful : CacheTruthful s
  keySound : KeySound s
  countSound : CountSound s

/-- Two states the host cannot tell apart: the same KEY_VALID, the same RK if it is set, the same commands existing, and
the same host. The working registers, CAP, CAP_CACHE and an RK that holds no value may differ. -/
structure Alike (s t : State) : Prop where
  keyValid : s.keyValid = t.keyValid
  rk : s.keyValid = true → s.rk = t.rk
  hasDec4 : s.cfg.hasDec4 = t.cfg.hasDec4
  host : s.host = t.host
  responses : s.responses = t.responses

/-- Two states that look alike to the host and whose cached capability answers, if any, are their platforms'. -/
structure Indistinguishable (s t : State) : Prop extends Alike s t where
  left : CacheTruthful s
  right : CacheTruthful t

/-- Two outcomes the host cannot tell apart, now or by any later step. -/
def OutcomesAlike : Result → Result → Prop
  | .next s, .next t => Indistinguishable s t
  | .fault a, .fault b => a = b
  | .refused a, .refused b => a = b
  | _, _ => False

/-- The responses a command may give (30_encoding.md R81, 46_size_validator.md R232, 60_exceptions.md R240). -/
def mayAnswer : Instr → Response → Prop
  | .setkey _, r => r = .ok [] ∨ r = .invalidKeySize 16
  | .enc _, r => (∃ out, out.length = 16 ∧ r = .ok out) ∨ r = .invalidBlockSize 16 ∨ r = .noKey
  | .dec _, r => (∃ out, out.length = 16 ∧ r = .ok out) ∨ r = .invalidBlockSize 16 ∨ r = .noKey
  | .enc4 _, r => (∃ out, out.length = 64 ∧ r = .ok out) ∨ r = .invalidBlockSize 64 ∨ r = .noKey
  | .dec4 _, r => (∃ out, out.length = 64 ∧ r = .ok out) ∨ r = .invalidBlockSize 64 ∨ r = .noKey ∨ r = .illegalCommand

/-- A response the core can give, which its bytes determine: an expected size is one byte and OUT at most 255. -/
def WireSized : Response → Prop
  | .ok out => out.length ≤ maxPayload
  | .invalidKeySize n => n < 256
  | .invalidBlockSize n => n < 256
  | .noKey => True
  | .illegalCommand => True

end Sys2Proof.Safety
end

