-- ==== Sys2Proof/Certificates/Slice0/Obligations.lean ====
section
/-! DEFINITION. The statements made of the model, each a proposition whose docstring names the rules of spec/ it
formalises. Nothing is proved here. -/

open Sys2Proof Sys2Proof.Machine Sys2Proof.Safety

/-! ### Bits, bytes and words -/

/-- R11: rotation moves bit `i` to bit `(i + n) mod 32`, is the two shifts joined, and by 0 is the identity. -/
def Obligations.RotationMovesEachBit : Prop :=
  (∀ (w : Word) (n i : Nat), n < 32 → i < 32 → (rotl32 w n).getLsbD ((i + n) % 32) = w.getLsbD i) ∧
    (∀ (w : Word) (n : Nat), 0 < n → n < 32 → rotl32 w n = (w <<< n ||| w >>> (32 - n))) ∧
    ∀ w : Word, rotl32 w 0 = w

/-- R13: packing and unpacking are big-endian, and inverse to each other (the spec's own inference, "derived: from the two
definitions"). -/
def Obligations.PackAndUnpackAreInverse : Prop :=
  (∀ b0 b1 b2 b3 : Byte,
      (be32 b0 b1 b2 b3).toNat = b0.toNat * 2 ^ 24 + b1.toNat * 2 ^ 16 + b2.toNat * 2 ^ 8 + b3.toNat ∧
        unbe32 (be32 b0 b1 b2 b3) = [b0, b1, b2, b3]) ∧
    (∀ w : Word, unbe32 w =
      [w.extractLsb' 24 8, w.extractLsb' 16 8, w.extractLsb' 8 8, w.extractLsb' 0 8] ∧
      be32 (w.extractLsb' 24 8) (w.extractLsb' 16 8) (w.extractLsb' 8 8) (w.extractLsb' 0 8) = w) ∧
    (∀ p : List Byte, p.length = 16 →
      bytes16 (words4 p).w0 (words4 p).w1 (words4 p).w2 (words4 p).w3 = p ∧
        ∀ j : Fin 4, (words4 p).get j =
          be32 (p.getD (4 * j.val) 0) (p.getD (4 * j.val + 1) 0) (p.getD (4 * j.val + 2) 0) (p.getD (4 * j.val + 3) 0)) ∧
    ∀ w0 w1 w2 w3 : Word, words4 (bytes16 w0 w1 w2 w3) = ⟨w0, w1, w2, w3⟩ ∧
      bytes16 w0 w1 w2 w3 = unbe32 w0 ++ unbe32 w1 ++ unbe32 w2 ++ unbe32 w3

/-! ### Substitution and the two transforms -/

/-- R111, R110: the Substitution Table is a permutation of the 256 byte values (the spec's own inference from its table),
with the corner cases given: its ends, its one zero and its one fixed point. -/
def Obligations.SboxPermutationAndCorners : Prop :=
  (∀ c : Byte, ∃ b : Byte, sbox b = c ∧ ∀ b' : Byte, sbox b' = c → b' = b) ∧
    sbox 0x00 = 0xd6 ∧ sbox 0xff = 0x48 ∧ sbox 0xf0 = 0x18 ∧
    ∀ b : Byte, (sbox b = 0 ↔ b = 0x71) ∧ (sbox b = b ↔ b = 0xab)

/-- R112, R201: the two S-boxes are their algebraic forms: the inverse in the field, between or before affine maps. -/
def Obligations.AlgebraicForms : Prop :=
  (∀ b : Byte, sbox b = sboxAlgebraic b) ∧ (∀ b : Byte, aesS b = aesAlgebraic b) ∧
    gfInv 0x1f5 0 = 0 ∧ gfInv 0x11b 0 = 0 ∧
    ∀ v : Byte, v ≠ 0 → gfMul 0x1f5 v (gfInv 0x1f5 v) = 1 ∧ gfMul 0x11b v (gfInv 0x11b v) = 1

/-- R113: TAU replaces each byte of a word in place, has the values given, and is a permutation of the words (the spec's own
inference from R111). -/
def Obligations.TauReplacesEachByte : Prop :=
  (∀ w : Word, tau w =
      be32 (sbox (w.extractLsb' 24 8)) (sbox (w.extractLsb' 16 8)) (sbox (w.extractLsb' 8 8)) (sbox (w.extractLsb' 0 8))) ∧
    (∀ c : Word, ∃ w : Word, tau w = c ∧ ∀ w' : Word, tau w' = c → w' = w) ∧
    tau 0x00000000 = 0xd6d6d6d6 ∧ tau 0xffffffff = 0x48484848 ∧ tau 0xf002c39e = 0x18e992b1

/-- R121, R120: LK is its formula and TK is LK of TAU, distinct from T, with the values given for both. That LK is linear
over XOR is the spec's own inference in R120. -/
def Obligations.KeyScheduleTransform : Prop :=
  (∀ b : Word, keyDiffuse b = b ^^^ rotl32 b 13 ^^^ rotl32 b 23) ∧
    (∀ a b : Word, keyDiffuse (a ^^^ b) = keyDiffuse a ^^^ keyDiffuse b) ∧
    keyDiffuse 0x00000000 = 0x00000000 ∧ keyDiffuse 0xffffffff = 0xffffffff ∧
    keyDiffuse 0x00000001 = 0x00802001 ∧ keyDiffuse 0x80000000 = 0x80401000 ∧
    (∀ w : Word, keyT w = keyDiffuse (tau w)) ∧
    keyT 0x00000000 = 0x67676767 ∧ keyT 0xffffffff = 0x65656565 ∧ keyT 0x8283cb69 = 0x53b37958 ∧
    ∃ w : Word, keyT w ≠ roundT w

/-- R141, R140, R142: L is its formula and takes one set bit to five; T is L of TAU, and not linear; both have the values
given; and T and TK differ where R142 says so. That L is linear over XOR is the spec's own inference in R140. -/
def Obligations.RoundTransform : Prop :=
  (∀ b : Word, diffuse b = b ^^^ rotl32 b 2 ^^^ rotl32 b 10 ^^^ rotl32 b 18 ^^^ rotl32 b 24) ∧
    (∀ a b : Word, diffuse (a ^^^ b) = diffuse a ^^^ diffuse b) ∧
    (∀ i j : Nat, i < 32 → j < 32 → (diffuse (BitVec.twoPow 32 i)).getLsbD j =
      decide (j ∈ [i, (i + 2) % 32, (i + 10) % 32, (i + 18) % 32, (i + 24) % 32])) ∧
    diffuse 0x00000000 = 0x00000000 ∧ diffuse 0xffffffff = 0xffffffff ∧
    diffuse 0x00000001 = 0x01040405 ∧ diffuse 0x80000000 = 0x80820202 ∧ diffuse 0x18e992b1 = 0x26d99622 ∧
    (∀ w : Word, roundT w = diffuse (tau w)) ∧
    roundT 0x00000000 = 0x5b5b5b5b ∧ roundT 0xffffffff = 0x21212121 ∧ roundT 0xf002c39e = 0x26d99622 ∧
    (∃ a b : Word, roundT (a ^^^ b) ≠ roundT a ^^^ roundT b) ∧
    roundT 0x00000001 = 0x1c424205 ∧ keyT 0x00000001 = 0x446fa721

/-- R123: the listed round constants are the formula `((4n + m) * 7) mod 256`, byte by byte. -/
def Obligations.RoundConstantsFormula : Prop :=
  ∀ n : Fin 32, ck[n] =
    be32 (BitVec.ofNat 8 (28 * n.val)) (BitVec.ofNat 8 (28 * n.val + 7)) (BitVec.ofNat 8 (28 * n.val + 14))
      (BitVec.ofNat 8 (28 * n.val + 21))

/-! ### Decoding, encoding and text -/

/-- R82, R84, R88, and the programs P1 to P3: command bytes written out from the spec decode to the commands they stand
for. That the table word 0x0102 comes with zero payload bytes is the model's choice (log 1). -/
def Obligations.SpecBytesDecode : Prop :=
  decode [0x01, 0x02, 0xaa, 0xbb] = .command (.setkey [0xaa, 0xbb]) [] ∧
    decode [0x02, 0x01, 0xcc, 0x03] = .command (.enc [0xcc]) [0x03] ∧
    decode [0x03, 0x00] = .command (.dec []) [] ∧
    decode [0x04, 0x03, 0x01, 0x02, 0x03] = .command (.enc4 [0x01, 0x02, 0x03]) [] ∧
    decode [0x05, 0x01, 0xff] = .command (.dec4 [0xff]) [] ∧
    decode [0x06, 0x00] = .reserved 0x06 [] ∧ decode [0x00, 0x01, 0x01, 0x02] = .reserved 0x00 [0x02] ∧
    decode [0x02, 0x02, 0xcc] = .incomplete ∧
    decodeTableWord 16 0x0102 = some (.setkey [0x00, 0x00])

/-- R82, R90: the decoder reads back every presentable command from its bytes, whatever follows them. -/
def Obligations.DecodeEncodeRoundTrip : Prop :=
  ∀ (i : Instr) (rest : List Byte), WellFormed i → decode (encode i ++ rest) = .command i rest

/-- R82, R90: whatever decodes to a command is that command's bytes, and the command is presentable. -/
def Obligations.EncodeDecodeRoundTrip : Prop :=
  ∀ (bytes rest : List Byte) (i : Instr), decode bytes = .command i rest → encode i ++ rest = bytes ∧ WellFormed i

/-- R84, R88, R89: OP alone decides: a complete frame is a command exactly if OP is 0x01 to 0x05, and its LEN payload
bytes are taken off either way. -/
def Obligations.OpAloneSelects : Prop :=
  ∀ (op : Byte) (payload rest : List Byte), payload.length ≤ 255 →
    ((0x01 ≤ op.toNat ∧ op.toNat ≤ 0x05) →
      ∃ i : Instr, decode (op :: BitVec.ofNat 8 payload.length :: (payload ++ rest)) = .command i rest ∧
        i.payload = payload ∧ i.opcode = op) ∧
      (op.toNat = 0x00 ∨ 0x06 ≤ op.toNat →
        decode (op :: BitVec.ofNat 8 payload.length :: (payload ++ rest)) = .reserved op rest)

/-- R83, R85: the bytes of a response are its STATUS, the number of its payload bytes and those bytes, and two responses
the core can give have the same bytes only if they are the same. -/
def Obligations.ResponseBytes : Prop :=
  (∀ out : List Byte, out.length ≤ 255 →
      encodeResponse (.ok out) = 0x00 :: BitVec.ofNat 8 out.length :: out) ∧
    encodeResponse (.invalidKeySize 16) = [0x01, 0x01, 0x10] ∧
    encodeResponse (.invalidBlockSize 16) = [0x02, 0x01, 0x10] ∧
    encodeResponse (.invalidBlockSize 64) = [0x02, 0x01, 0x40] ∧
    encodeResponse .noKey = [0x03, 0x00] ∧ encodeResponse .illegalCommand = [0x04, 0x00] ∧
    ∀ r r' : Response, WireSized r → WireSized r' → encodeResponse r = encodeResponse r' → r = r'

/-- R92: the assembler reads back every command from its text. The text of an empty payload is the model's choice
(log 13). -/
def Obligations.AssemblerRoundTrip : Prop := ∀ i : Instr, assemble (disassemble i) = some i

/-! ### One step -/

/-- R6, R62: when the host's next move presents the bytes of a command, the step is that command carried out with the move
taken. -/
def Obligations.StepRunsTheCommand : Prop :=
  ∀ (s : State) (bytes : List Byte) (rest : List HostMove) (i : Instr),
    s.host = .command bytes :: rest → decode bytes = .command i [] → step s = exec i { s with host := rest }

/-- The state `withFetchWord` builds runs, at its very next step, the command the decoder reads from the table word. -/
def Obligations.TableWordRunsNext : Prop :=
  ∀ (s : State) (nbits w : Nat) (i : Instr),
    decodeTableWord nbits w = some i → step (s.withFetchWord nbits w) = exec i s

/-- R88, R247: a reserved OP is answered IllegalCommand, with its payload discarded and no state changed. The spec lets a
model refuse instead: answering is the model's choice (log 6). -/
def Obligations.ReservedOpIsAnswered : Prop :=
  ∀ (s : State) (op : Byte) (payload : List Byte) (rest : List HostMove),
    payload.length ≤ 255 → op.toNat = 0x00 ∨ 0x06 ≤ op.toNat →
      s.host = .command (op :: BitVec.ofNat 8 payload.length :: payload) :: rest →
        step s = .next { s with host := rest, responses := s.responses ++ [.illegalCommand] }

/-- R270, U10 (the spec's decision D9): reset, between commands or during one, clears KEY_VALID and CAP_CACHE, gives no response, and leaves the
platform's parameters and the host's further moves; every register's value is lost, that is the state after does not
depend on what the registers held. Which values they hold afterwards is not stated. -/
def Obligations.ResetEvent : Prop :=
  (∀ (s : State) (rest : List HostMove),
    (s.host = .reset :: rest ∨ ∃ bytes, s.host = .resetDuring bytes :: rest) →
      ∃ t, step s = .next t ∧ t.keyValid = false ∧ t.capCache = none ∧ t.cfg = s.cfg ∧ t.host = rest ∧
        t.responses = s.responses) ∧
    ∀ (s s' : State) (rest : List HostMove),
      (s.host = .reset :: rest ∨ ∃ bytes, s.host = .resetDuring bytes :: rest) →
        s'.host = s.host → s'.cfg = s.cfg → s'.responses = s.responses → step s' = step s

/-- R33: after reset the slot holds no instance and the capability cache is invalid. -/
def Obligations.ResetState : Prop :=
  State.reset.keyValid = false ∧ State.reset.capCache = none ∧ State.reset.cfg.hasDec4 = true

/-- R271: a core with no command presented stays as it is. The two moves the host does not have stop the model by name
(log 7). -/
def Obligations.IdleAndStuckSteps : Prop :=
  (∀ s : State, s.host = [] → step s = .next s) ∧
    (∀ (s : State) (bytes : List Byte) (rest : List HostMove),
      s.host = .command bytes :: rest → decode bytes = .incomplete → step s = .fault .incompleteCommand) ∧
    ∀ (s : State) (bytes : List Byte) (rest : List HostMove) (i : Instr) (b : Byte) (more : List Byte),
      s.host = .command bytes :: rest → decode bytes = .command i (b :: more) →
        step s = .fault .commandBeforeResponse

/-- R250: within one command, first failure wins: a reserved OP, then no instance, then the length, and then the command
succeeds. The lengths are R230's table. That NoKey and IllegalCommand are answered is log 6. -/
def Obligations.ChecksInOrder : Prop :=
  ∀ (s : State) (op : Byte) (payload : List Byte) (rest : List HostMove), CacheTruthful s →
    payload.length ≤ 255 → s.host = .command (op :: BitVec.ofNat 8 payload.length :: payload) :: rest →
      if op.toNat = 0 ∨ 6 ≤ op.toNat ∨ (op.toNat = 5 ∧ s.cfg.hasDec4 = false) then
        step s = .next { s with host := rest, responses := s.responses ++ [.illegalCommand] }
      else if op.toNat ≠ 1 ∧ s.keyValid = false then
        step s = .next { s with host := rest, responses := s.responses ++ [.noKey] }
      else if op.toNat = 1 ∧ payload.length ≠ 16 then
        step s = .next { s with host := rest, responses := s.responses ++ [.invalidKeySize 16] }
      else if (op.toNat = 2 ∨ op.toNat = 3) ∧ payload.length ≠ 16 then
        step s = .next { s with host := rest, responses := s.responses ++ [.invalidBlockSize 16] }
      else if (op.toNat = 4 ∨ op.toNat = 5) ∧ payload.length ≠ 64 then
        step s = .next { s with host := rest, responses := s.responses ++ [.invalidBlockSize 64] }
      else ∃ t out, step s = .next t ∧ t.host = rest ∧ t.responses = s.responses ++ [.ok out]

/-! ### SM4.SETKEY -/

/-- R124: one sub-step: `K[j]` and `RK[n]` take the new word, RND goes up by one, and nothing else changes. -/
def Obligations.KeyScheduleSubStep : Prop :=
  ∀ (s : State) (n : Fin 32), s.rnd = BitVec.ofNat 6 n.val →
    let j : Fin 4 := Fin.ofNat 4 n.val
    let new := s.k.get j ^^^ keyT (s.k.get (j + 1) ^^^ s.k.get (j + 2) ^^^ s.k.get (j + 3) ^^^ ck[n])
    (kstep s).k.get j = new ∧ (∀ m : Fin 4, m ≠ j → (kstep s).k.get m = s.k.get m) ∧
      (kstep s).rk[n] = new ∧ (∀ m : Fin 32, m ≠ n → (kstep s).rk[m] = s.rk[m]) ∧
      (kstep s).rnd = BitVec.ofNat 6 (n.val + 1) ∧
      (kstep s).keyValid = s.keyValid ∧ (kstep s).x = s.x ∧ (kstep s).v = s.v ∧ (kstep s).dir = s.dir ∧
      (kstep s).cfg = s.cfg ∧ (kstep s).capCache = s.capCache ∧ (kstep s).host = s.host ∧
      (kstep s).responses = s.responses

/-- R125, R126: SM4.SETKEY with 16 bytes completes: KEY_VALID is set, RK is the key's RoundKeySet in the sliding form, the
answer is OK with nothing, and beside the working words K and the count nothing else changes. The sliding form is the
spec's own inference in R125; that X and V are left as they were is log 9. -/
def Obligations.SetkeyCompletes : Prop :=
  ∀ (p : List Byte) (s : State), p.length = 16 →
    ∃ t, exec (.setkey p) s = .next t ∧ t.keyValid = true ∧ t.rk = roundKeys p ∧
      t.responses = s.responses ++ [.ok []] ∧ t.x = s.x ∧ t.v = s.v ∧ t.dir = s.dir ∧ t.cfg = s.cfg ∧
      t.capCache = s.capCache ∧ t.host = s.host

/-- R241: InvalidKeySize is raised by SM4.SETKEY exactly when the key is not 16 bytes, by no other command, before any
state is written, with the response bytes given. -/
def Obligations.InvalidKeySizeRule : Prop :=
  (∀ (p : List Byte) (s : State), p.length ≠ 16 →
      exec (.setkey p) s = .next { s with responses := s.responses ++ [.invalidKeySize 16] }) ∧
    (∀ (i : Instr) (s t : State) (n : Nat), exec i s = .next t →
      t.responses = s.responses ++ [.invalidKeySize n] → ∃ p : List Byte, i = .setkey p ∧ p.length ≠ 16 ∧ n = 16) ∧
    encodeResponse (.invalidKeySize 16) = [0x01, 0x01, 0x10]

/-- R34 (in part the spec's own inference and decision D2): re-keying. A successful SM4.SETKEY leaves the new key's RoundKeySet and, whatever the slot held before, nothing of
the old one; a failed one changes nothing but its response; reset ends the instance. -/
def Obligations.RekeyReplacesTheInstance : Prop :=
  (∀ (p : List Byte) (s s' t t' : State), p.length = 16 → exec (.setkey p) s = .next t →
      exec (.setkey p) s' = .next t' →
        t.keyValid = true ∧ t.rk = roundKeys p ∧ t'.keyValid = t.keyValid ∧ t'.rk = t.rk ∧ t'.k = t.k) ∧
    (∀ (p : List Byte) (s t : State), p.length ≠ 16 → exec (.setkey p) s = .next t →
      t.keyValid = s.keyValid ∧ t.rk = s.rk ∧ t = { s with responses := t.responses }) ∧
    ∀ (s t : State) (rest : List HostMove), s.host = .reset :: rest → step s = .next t → t.keyValid = false

/-! ### SM4.ENC and SM4.DEC -/

/-- R151: the round-key index, ascending for encryption and descending for decryption. -/
def Obligations.RoundKeyIndex : Prop :=
  ∀ i : Fin 32, (kidx i .enc).val = i.val ∧ (kidx i .dec).val = 31 - i.val

/-- R152: one round updates one word from the other three and one round key, counts up, and changes nothing else. -/
def Obligations.ScalarRound : Prop :=
  ∀ (s : State) (i : Fin 32), s.rnd = BitVec.ofNat 6 i.val →
    let t : Fin 4 := Fin.ofNat 4 i.val
    (rstep s).x.get t = s.x.get t ^^^
        roundT (s.x.get (t + 1) ^^^ s.x.get (t + 2) ^^^ s.x.get (t + 3) ^^^ s.rk[kidx i s.dir]) ∧
      (∀ m : Fin 4, m ≠ t → (rstep s).x.get m = s.x.get m) ∧
      (rstep s).rnd = BitVec.ofNat 6 (i.val + 1) ∧ rstep s = { s with x := (rstep s).x, rnd := (rstep s).rnd }

/-- R152's "one round is its own inverse", the spec's own inference from the pseudocode: a round done again with the same
number and the same round key restores X. -/
def Obligations.RoundIsItsOwnInverse : Prop :=
  ∀ s : State, (rstep { rstep s with rnd := s.rnd }).x = s.x

/-- R155, R154: SM4.ENC of 16 bytes under an instance completes: the answer is CRYPT1 in the sliding form, round keys
ascending, and beside the working words X, the count and the direction nothing changes. The sliding form is the spec's own
inference in R154; that K and V are left as they were is log 9. -/
def Obligations.EncCompletes : Prop :=
  ∀ (p : List Byte) (s : State), s.keyValid = true → p.length = 16 →
    ∃ t, exec (.enc p) s = .next t ∧ t.responses = s.responses ++ [.ok (cipher s.rk .enc p)] ∧
      t.keyValid = true ∧ t.rk = s.rk ∧ t.k = s.k ∧ t.v = s.v ∧ t.cfg = s.cfg ∧ t.capCache = s.capCache ∧
      t.host = s.host

/-- R156, R154: SM4.DEC likewise, with the same RoundKeySet descending. The sliding form is the spec's own inference in
R154; that K and V are left as they were is log 9. -/
def Obligations.DecCompletes : Prop :=
  ∀ (p : List Byte) (s : State), s.keyValid = true → p.length = 16 →
    ∃ t, exec (.dec p) s = .next t ∧ t.responses = s.responses ++ [.ok (cipher s.rk .dec p)] ∧
      t.keyValid = true ∧ t.rk = s.rk ∧ t.k = s.k ∧ t.v = s.v ∧ t.cfg = s.cfg ∧ t.capCache = s.capCache ∧
      t.host = s.host

/-- V1, V2 (the source's own values): round keys 0 and 31 that SM4.SETKEY makes of the key 0123...3210, and the answer
SM4.ENC then gives to the same bytes. -/
def Obligations.SourceKnownAnswers : Prop :=
  let bytes : List Byte :=
    [0x01, 0x23, 0x45, 0x67, 0x89, 0xab, 0xcd, 0xef, 0xfe, 0xdc, 0xba, 0x98, 0x76, 0x54, 0x32, 0x10]
  ∃ t u, exec (.setkey bytes) State.reset = .next t ∧ t.rk[0] = 0xf12186f9 ∧ t.rk[31] = 0x9124a012 ∧
    exec (.enc bytes) t = .next u ∧ u.responses = [.ok [], .ok
      [0x68, 0x1e, 0xdf, 0x34, 0xd2, 0x06, 0x96, 0x5e, 0x86, 0xb3, 0xe9, 0x4f, 0x53, 0x6e, 0x42, 0x46]]

/-- R157: for every RoundKeySet, made of a key or not, decryption undoes encryption and encryption undoes decryption, in
the sliding form (the spec's own inference in R154). -/
def Obligations.CipherRoundTrip : Prop :=
  ∀ (rk : Vector Word 32) (b : List Byte), b.length = 16 →
    cipher rk .dec (cipher rk .enc b) = b ∧ cipher rk .enc (cipher rk .dec b) = b

/-- R157 on the machine: SM4.DEC of what SM4.ENC answered, in the state SM4.ENC left, answers the block again, and the
other way round. -/
def Obligations.CommandRoundTrip : Prop :=
  ∀ (b : List Byte) (s : State), s.keyValid = true → b.length = 16 →
    (∃ c t u, exec (.enc b) s = .next t ∧ t.responses = s.responses ++ [.ok c] ∧
      exec (.dec c) t = .next u ∧ u.responses = t.responses ++ [.ok b]) ∧
    ∃ c t u, exec (.dec b) s = .next t ∧ t.responses = s.responses ++ [.ok c] ∧
      exec (.enc c) t = .next u ∧ u.responses = t.responses ++ [.ok b]

/-- R242: InvalidBlockSize is raised by the transforms exactly when the length is wrong, by no other command, with no
output and no state changed, with the response bytes given. -/
def Obligations.InvalidBlockSizeRule : Prop :=
  (∀ (p : List Byte) (s : State), s.keyValid = true → p.length ≠ 16 →
      exec (.enc p) s = .next { s with responses := s.responses ++ [.invalidBlockSize 16] } ∧
        exec (.dec p) s = .next { s with responses := s.responses ++ [.invalidBlockSize 16] }) ∧
    (∀ (p : List Byte) (s : State), s.keyValid = true → p.length ≠ 64 →
      exec (.enc4 p) s = .next { s with responses := s.responses ++ [.invalidBlockSize 64] } ∧
        (s.cfg.hasDec4 = true →
          exec (.dec4 p) s = .next { s with responses := s.responses ++ [.invalidBlockSize 64] })) ∧
    (∀ (i : Instr) (s t : State) (n : Nat), exec i s = .next t →
      t.responses = s.responses ++ [.invalidBlockSize n] →
        (∃ p : List Byte, (i = .enc p ∨ i = .dec p) ∧ p.length ≠ 16 ∧ n = 16) ∨
          ∃ p : List Byte, (i = .enc4 p ∨ i = .dec4 p) ∧ p.length ≠ 64 ∧ n = 64) ∧
    encodeResponse (.invalidBlockSize 16) = [0x02, 0x01, 0x10] ∧
    encodeResponse (.invalidBlockSize 64) = [0x02, 0x01, 0x40]

/-- R246: a transform without an instance, whatever its payload, is answered NoKey and changes no state. The spec lets a
model refuse instead: answering is the model's choice (log 6). -/
def Obligations.TransformWithoutKey : Prop :=
  ∀ (p : List Byte) (s : State), s.keyValid = false →
    exec (.enc p) s = .next { s with responses := s.responses ++ [.noKey] } ∧
      exec (.dec p) s = .next { s with responses := s.responses ++ [.noKey] } ∧
      exec (.enc4 p) s = .next { s with responses := s.responses ++ [.noKey] } ∧
      (s.cfg.hasDec4 = true → exec (.dec4 p) s = .next { s with responses := s.responses ++ [.noKey] })

/-! ### The vector engine -/

/-- R208: the two affine maps and the surrogate's S-box make the Substitution Table, on every byte. -/
def Obligations.FieldIsomorphism : Prop := ∀ b : Byte, a2 (aesS (a1 b)) = sbox b

/-- R205, R206: the affine maps' constant-and-columns form is the nibble-table form on every byte, both are bijections,
and they have the values given. -/
def Obligations.AffineForms : Prop :=
  (∀ b : Byte, a1 b = a1Nibbles b ∧ a2 b = a2Nibbles b) ∧
    (∀ c : Byte, (∃ b, a1 b = c ∧ ∀ b', a1 b' = c → b' = b) ∧ ∃ b, a2 b = c ∧ ∀ b', a2 b' = c → b' = b) ∧
    a1 0x00 = 0x01 ∧ a1 0xff = 0x37 ∧ a2 0x00 = 0x34 ∧ a2 0xff = 0xfc

/-- R202, R204: the surrogate's final round byte by byte, and the pre-permutation that cancels its row shift, so that the
substitution is in place. -/
def Obligations.RowShiftCancelled : Prop :=
  (∀ (v key : Vec) (p : Nat), p < 16 → vecByte (bcfr v key) p = aesS (vecByte v (sr p)) ^^^ vecByte key p) ∧
    (List.range 16).map sr = [0, 5, 10, 15, 4, 9, 14, 3, 8, 13, 2, 7, 12, 1, 6, 11] ∧
    (List.range 16).map isr = [0, 13, 10, 7, 4, 1, 14, 11, 8, 5, 2, 15, 12, 9, 6, 3] ∧
    (∀ p : Nat, p < 16 → isr (sr p) = p) ∧
    (∀ (v : Vec) (p : Nat), p < 16 → vecByte (visr v) p = vecByte v (isr p)) ∧
    ∀ (v : Vec) (p : Nat), p < 16 → vecByte (bcfr (visr v) zero128) p = aesS (vecByte v p)

/-- R200: VSUB applies the Substitution Table to each of the sixteen bytes, that is TAU to each lane. -/
def Obligations.VectorSubstitution : Prop :=
  ∀ v : Vec, (∀ p : Nat, p < 16 → vecByte (vsub v) p = sbox (vecByte v p)) ∧
    ∀ l : Fin 4, (vsub v).get l = tau (v.get l)

/-- R211, R210 (the lane form of the shuffles is the spec's own inference in R210): the byte shuffles are the rotations by
8, 16 and 24, lane by lane and byte by byte within the lane; the shifts lose the bits shifted out and fill with zeros on
either side, and bits never leave their lane. -/
def Obligations.VectorShufflesAndShifts : Prop :=
  (∀ (v : Vec) (n : Nat), n = 8 ∨ n = 16 ∨ n = 24 →
    (∀ l : Fin 4, (vrotb v n).get l = rotl32 (v.get l) n) ∧
      ∀ l m : Nat, l < 4 → m < 4 → vecByte (vrotb v n) (4 * l + m) = vecByte v (4 * l + (m + n / 8) % 4)) ∧
    ∀ (v w : Vec) (n : Nat) (l : Fin 4),
      ((vshl v n).get l).toNat = (v.get l).toNat * 2 ^ n % 2 ^ 32 ∧
        ((vshr v n).get l).toNat = (v.get l).toNat / 2 ^ n ∧
        (vor v w).get l = (v.get l ||| w.get l) ∧ (vxor v w).get l = (v.get l ^^^ w.get l)

/-- R212, R213: the shuffle-and-shift diffusion is `L` on each lane, and so is the other arrangement R213 names. That the
factored form is the five terms of `L` is the spec's own inference in R213. -/
def Obligations.VectorDiffusion : Prop :=
  (∀ b : Word, rotl32 (b ^^^ rotl32 b 8 ^^^ rotl32 b 16) 2 = rotl32 b 2 ^^^ rotl32 b 10 ^^^ rotl32 b 18 ∧
      diffuseFactored b = diffuse b) ∧
    ∀ (v : Vec) (l : Fin 4), (vl v).get l = diffuse (v.get l) ∧ (vlSeparate v).get l = diffuse (v.get l)

/-- R174, R175, R180: of a 64-byte batch, lane `l` of `V[j]` is loaded with word `j` of block `l`, so that its byte `m` is
byte `16l + 4j + m`; a round key goes to all four lanes; and output byte `16l + 4j + m` is byte `m` of lane `l` of
`V[3 - j]`. -/
def Obligations.BatchLoadAndStore : Prop :=
  (∀ (p : List Byte) (j l : Fin 4), p.length = 64 →
      ((vload p).get j).get l =
          be32 (p.getD (16 * l.val + 4 * j.val) 0) (p.getD (16 * l.val + 4 * j.val + 1) 0)
            (p.getD (16 * l.val + 4 * j.val + 2) 0) (p.getD (16 * l.val + 4 * j.val + 3) 0) ∧
        ∀ m : Fin 4, p[16 * l.val + 4 * j.val + m.val]? = some (vecByte ((vload p).get j) (4 * l.val + m.val))) ∧
    (∀ (k : Word) (l : Fin 4), (vbcast k).get l = k) ∧
    ∀ s : State, (emitBatch s).length = 64 ∧
      ∀ l j m : Fin 4, (emitBatch s)[16 * l.val + 4 * j.val + m.val]? =
        some (vecByte (s.v.get (3 - j)) (4 * l.val + m.val))

/-- R176, R177, R179 (the lane form is the spec's own inference in R179): one vector round is, lane by lane, one scalar
round on block `l`, counts up, and changes nothing else. -/
def Obligations.VectorRound : Prop :=
  ∀ (s : State) (i : Fin 32), s.rnd = BitVec.ofNat 6 i.val →
    let t : Fin 4 := Fin.ofNat 4 i.val
    (∀ l : Fin 4, ((vrstep s).v.get t).get l = (s.v.get t).get l ^^^
        roundT ((s.v.get (t + 1)).get l ^^^ (s.v.get (t + 2)).get l ^^^ (s.v.get (t + 3)).get l ^^^
          s.rk[kidx i s.dir])) ∧
      (∀ m : Fin 4, m ≠ t → (vrstep s).v.get m = s.v.get m) ∧
      (vrstep s).rnd = BitVec.ofNat 6 (i.val + 1) ∧ vrstep s = { s with v := (vrstep s).v, rnd := (vrstep s).rnd }

/-- R171, R27: the capability query answers CAP, cached or not, keeps its answer if it is cached, and changes nothing
else. -/
def Obligations.CapabilityQuery : Prop :=
  ∀ s : State, CacheTruthful s →
    capAnswer s = s.cfg.cap ∧
      capq s = (if s.cfg.capCached then { s with capCache := some s.cfg.cap } else s)

/-- R170: for every batch, direction, RoundKeySet and CAP, the batch transform answers the four outputs of the scalar
transform on the four blocks, joined; and so does each of its two paths by itself (R185). A cached capability answer is
the platform's (R28). -/
def Obligations.BatchPathsAgree : Prop :=
  ∀ (p : List Byte) (d : Dir) (s : State), p.length = 64 →
    ∃ out : Fin 4 → List Byte,
      (∀ l : Fin 4, ∃ t, crypt1 (blockAt p l.val) d s = .next t ∧ t.responses = s.responses ++ [.ok (out l)]) ∧
        let answer := s.responses ++ [.ok (out 0 ++ out 1 ++ out 2 ++ out 3)]
        (∃ t, crypt4Acc p d s = .next t ∧ t.responses = answer) ∧
          (∃ t, crypt4Fallback p d s = .next t ∧ t.responses = answer) ∧
          (CacheTruthful s → ∃ t, crypt4 p d s = .next t ∧ t.responses = answer)

/-- R182, R170, R172: SM4.ENC4 of 64 bytes under an instance completes for every CAP: the answer is the four scalar
transforms in the sliding form, and nothing changes but the working registers and the capability cache, which keeps only
CAP. The sliding form is the spec's own inference in R154; which working registers are left as they were is log 9. -/
def Obligations.Enc4Completes : Prop :=
  ∀ (p : List Byte) (s : State), CacheTruthful s → s.keyValid = true → p.length = 64 →
    ∃ t, exec (.enc4 p) s = .next t ∧ t.responses = s.responses ++ [.ok (cipherBatch s.rk .enc p)] ∧
      t.keyValid = true ∧ t.rk = s.rk ∧ t.k = s.k ∧ t.cfg = s.cfg ∧ t.host = s.host ∧
      t.capCache = (if s.cfg.capCached then some s.cfg.cap else s.capCache) ∧
      (if s.cfg.cap = 0b1111#4 then t.x = s.x else t.v = s.v)

/-- R183, R170, R172: SM4.DEC4 likewise, on a core that has it. The sliding form is the spec's own inference in R154; which
working registers are left as they were is log 9. -/
def Obligations.Dec4Completes : Prop :=
  ∀ (p : List Byte) (s : State), CacheTruthful s → s.cfg.hasDec4 = true → s.keyValid = true → p.length = 64 →
    ∃ t, exec (.dec4 p) s = .next t ∧ t.responses = s.responses ++ [.ok (cipherBatch s.rk .dec p)] ∧
      t.keyValid = true ∧ t.rk = s.rk ∧ t.k = s.k ∧ t.cfg = s.cfg ∧ t.host = s.host ∧
      t.capCache = (if s.cfg.capCached then some s.cfg.cap else s.capCache) ∧
      (if s.cfg.cap = 0b1111#4 then t.x = s.x else t.v = s.v)

/-- R183, R247: on a core without SM4.DEC4 the command is answered IllegalCommand, before any other check, and changes no
state. The spec lets a model refuse instead: answering is the model's choice (log 6). -/
def Obligations.Dec4Absent : Prop :=
  ∀ (p : List Byte) (s : State), s.cfg.hasDec4 = false →
    exec (.dec4 p) s = .next { s with responses := s.responses ++ [.illegalCommand] }

/-- R184 (the spec's own inference from R170), R93: output block `l` of a batch is what SM4.ENC answers to input block `l`, so blocks put in any order,
or repeated, give their outputs in that order. -/
def Obligations.LanesAreIndependent : Prop :=
  ∀ (s : State) (block : Fin 4 → List Byte), CacheTruthful s → s.keyValid = true →
    (∀ l, (block l).length = 16) →
      ∃ out : Fin 4 → List Byte,
        (∀ l, ∃ t, exec (.enc (block l)) s = .next t ∧ t.responses = s.responses ++ [.ok (out l)]) ∧
          ∀ σ : Fin 4 → Fin 4, ∃ t,
            exec (.enc4 (block (σ 0) ++ block (σ 1) ++ block (σ 2) ++ block (σ 3))) s = .next t ∧
              t.responses = s.responses ++ [.ok (out (σ 0) ++ out (σ 1) ++ out (σ 2) ++ out (σ 3))]

/-- R183 (the spec's own inference from R170 and R157): SM4.DEC4 of what SM4.ENC4 answered answers the batch again, even on another platform's path: `cfg` is any
other parameters with the same commands. -/
def Obligations.BatchRoundTrip : Prop :=
  ∀ (p : List Byte) (s : State) (cfg : Config), CacheTruthful s → cfg.hasDec4 = true → s.keyValid = true →
    p.length = 64 →
      ∃ c t u, exec (.enc4 p) s = .next t ∧ t.responses = s.responses ++ [.ok c] ∧
        exec (.dec4 c) { t with cfg := cfg, capCache := none } = .next u ∧
        u.responses = t.responses ++ [.ok p]

/-- U6, R277: a stale cached answer that would enter the accelerated path without its capabilities has no meaning in the
spec: the batch commands refuse it by name (log 8). Every other command, and a batch in any other case, gives a next
state; where that is the answer NoKey or IllegalCommand, it rests on log 6. -/
def Obligations.OnlyStaleCapabilityRefused : Prop :=
  (∀ (p : List Byte) (s : State), s.keyValid = true → p.length = 64 → s.cfg.capCached = true →
      s.capCache = some 0b1111#4 → s.cfg.cap ≠ 0b1111#4 →
        exec (.enc4 p) s = .refused .staleCapability ∧
          (s.cfg.hasDec4 = true → exec (.dec4 p) s = .refused .staleCapability)) ∧
    ∀ (i : Instr) (s : State), (∃ t, exec i s = .next t) ∨
      exec i s = .refused .staleCapability ∧
        (∃ p : List Byte, (i = .enc4 p ∨ i = .dec4 p ∧ s.cfg.hasDec4 = true) ∧ p.length = 64) ∧ s.keyValid = true ∧
        s.cfg.capCached = true ∧ s.capCache = some 0b1111#4 ∧ s.cfg.cap ≠ 0b1111#4

/-! ### The whole machine -/

/-- The invariant holds at reset. That its round count is 0 there is the model's choice (log 3). -/
def Obligations.InvariantAtReset : Prop := Inv State.reset

/-- R22, R25, R28: every step keeps the invariant: a cached capability answer is CAP, an instance's RK is some key's
RoundKeySet, and RND is at most 32. -/
def Obligations.StepKeepsInvariant : Prop := ∀ s t : State, Inv s → step s = .next t → Inv t

/-- R27, R277: no step changes the platform's parameters. -/
def Obligations.ParametersAreConstant : Prop := ∀ s t : State, step s = .next t → t.cfg = s.cfg

/-- R32, R21: only a successful SM4.SETKEY and reset change KEY_VALID or RK. -/
def Obligations.OnlySetkeyAndResetWriteTheSlot : Prop :=
  ∀ s t : State, step s = .next t → t.keyValid ≠ s.keyValid ∨ t.rk ≠ s.rk →
    (∃ bytes rest p, s.host = .command bytes :: rest ∧ decode bytes = .command (.setkey p) [] ∧ p.length = 16) ∨
      (∃ rest, s.host = .reset :: rest) ∨ ∃ bytes rest, s.host = .resetDuring bytes :: rest

/-- R251, R252: a command answered with an error leaves every piece of state exactly as it was. -/
def Obligations.FailedCommandChangesNothing : Prop :=
  ∀ (i : Instr) (s t : State) (r : Response), exec i s = .next t → t.responses = s.responses ++ [r] →
    isError r = true → t = { s with responses := s.responses ++ [r] }

/-- R81, R83, R232: every command that completes gives exactly one response, of a form its operation may give. -/
def Obligations.OneProperResponse : Prop :=
  ∀ (i : Instr) (s t : State), exec i s = .next t → ∃ r, t.responses = s.responses ++ [r] ∧ mayAnswer i r

/-- R233 (the spec's own inference from R230): the payload of a command that fails is not interpreted: another payload of
the same length has the same outcome. Where that is the answer NoKey or IllegalCommand, see log 6. -/
def Obligations.FailedPayloadIsIgnored : Prop :=
  ∀ (p q : List Byte) (s : State), p.length = q.length →
    (p.length ≠ 16 → exec (.setkey p) s = exec (.setkey q) s) ∧
      (p.length ≠ 16 ∨ s.keyValid = false →
        exec (.enc p) s = exec (.enc q) s ∧ exec (.dec p) s = exec (.dec q) s) ∧
      (p.length ≠ 64 ∨ s.keyValid = false → exec (.enc4 p) s = exec (.enc4 q) s) ∧
      (p.length ≠ 64 ∨ s.keyValid = false ∨ s.cfg.hasDec4 = false → exec (.dec4 p) s = exec (.dec4 q) s)

/-- R158, R62, R245, R22: what the host sees of a step depends on KEY_VALID, on RK only while it holds an instance, and
on the host's own moves: not on the working registers, CAP, the cache or an RK without an instance. The outcomes are
indistinguishable in the sense the two states were, so no later step tells them apart either. -/
def Obligations.HostSeesOnlyTheSlot : Prop :=
  ∀ s t : State, Indistinguishable s t → OutcomesAlike (step s) (step t)

/-- R62 (b), R257: two transforms done in either order give each its own answer and leave the same slot. Those rules speak
of transforms under an instance; that the order makes no difference without one either, or for an absent SM4.DEC4, rests
on answering NoKey and IllegalCommand (R246, R247, log 6). -/
def Obligations.TransformsCommute : Prop :=
  ∀ (i j : Instr) (s : State), i.isTransform = true → j.isTransform = true → CacheTruthful s →
    ∃ a b t u ri rj, exec i s = .next a ∧ exec j a = .next t ∧ exec j s = .next b ∧ exec i b = .next u ∧
      t.responses = s.responses ++ [ri, rj] ∧ u.responses = s.responses ++ [rj, ri] ∧
      t.keyValid = s.keyValid ∧ u.keyValid = s.keyValid ∧ t.rk = s.rk ∧ u.rk = s.rk
end

