-- ==== Sys2Proof/Laws/Repeat.lean ====
section
/-! SUPPORT. The laws of `repeatStep`: what every step keeps, the repetition keeps. -/

namespace Sys2Proof.Machine

theorem repeatStep_succ_last (step : State → State) (n : Nat) (s : State) :
    repeatStep step (n + 1) s = step (repeatStep step n s) := by
  induction n generalizing s with
  | zero => rfl
  | succ n ih => exact ih (step s)

theorem repeatStep_keeps_field {α : Type} (step : State → State) (field : State → α)
    (keeps : ∀ s, field (step s) = field s) (n : Nat) (s : State) :
    field (repeatStep step n s) = field s := by
  induction n generalizing s with
  | zero => rfl
  | succ n ih => exact (ih (step s)).trans (keeps s)

theorem repeatStep_counts (step : State → State) (counts : ∀ s, (step s).rnd = s.rnd + 1) (n : Nat) (s : State) :
    (repeatStep step n s).rnd = s.rnd + BitVec.ofNat 6 n := by
  induction n generalizing s with
  | zero => simp [repeatStep]
  | succ n ih =>
    have h : (repeatStep step (n + 1) s).rnd = (step s).rnd + BitVec.ofNat 6 n := ih (step s)
    rw [h, counts, BitVec.add_assoc, BitVec.ofNat_add, BitVec.add_comm 1]
    rfl

end Sys2Proof.Machine
end

