-- ==== Sys2Proof/Laws/State.lean ====
section
/-! SUPPORT. One lemma per field per update of the state, so that no later proof unfolds a record update. -/

namespace Sys2Proof.Machine

@[simp] theorem respond_keyValid (r : Response) (s : State) : (respond r s).keyValid = s.keyValid := rfl
@[simp] theorem respond_rk (r : Response) (s : State) : (respond r s).rk = s.rk := rfl
@[simp] theorem respond_k (r : Response) (s : State) : (respond r s).k = s.k := rfl
@[simp] theorem respond_x (r : Response) (s : State) : (respond r s).x = s.x := rfl
@[simp] theorem respond_v (r : Response) (s : State) : (respond r s).v = s.v := rfl
@[simp] theorem respond_rnd (r : Response) (s : State) : (respond r s).rnd = s.rnd := rfl
@[simp] theorem respond_dir (r : Response) (s : State) : (respond r s).dir = s.dir := rfl
@[simp] theorem respond_cfg (r : Response) (s : State) : (respond r s).cfg = s.cfg := rfl
@[simp] theorem respond_capCache (r : Response) (s : State) : (respond r s).capCache = s.capCache := rfl
@[simp] theorem respond_host (r : Response) (s : State) : (respond r s).host = s.host := rfl
@[simp] theorem respond_responses (r : Response) (s : State) : (respond r s).responses = s.responses ++ [r] := rfl

@[simp] theorem loadKey_keyValid (key : List Byte) (s : State) : (loadKey key s).keyValid = s.keyValid := rfl
@[simp] theorem loadKey_rk (key : List Byte) (s : State) : (loadKey key s).rk = s.rk := rfl
@[simp] theorem loadKey_k (key : List Byte) (s : State) :
    (loadKey key s).k = Quad.zipWith (· ^^^ ·) (words4 key) fk := rfl
@[simp] theorem loadKey_x (key : List Byte) (s : State) : (loadKey key s).x = s.x := rfl
@[simp] theorem loadKey_v (key : List Byte) (s : State) : (loadKey key s).v = s.v := rfl
@[simp] theorem loadKey_rnd (key : List Byte) (s : State) : (loadKey key s).rnd = 0 := rfl
@[simp] theorem loadKey_dir (key : List Byte) (s : State) : (loadKey key s).dir = s.dir := rfl
@[simp] theorem loadKey_cfg (key : List Byte) (s : State) : (loadKey key s).cfg = s.cfg := rfl
@[simp] theorem loadKey_capCache (key : List Byte) (s : State) : (loadKey key s).capCache = s.capCache := rfl
@[simp] theorem loadKey_host (key : List Byte) (s : State) : (loadKey key s).host = s.host := rfl
@[simp] theorem loadKey_responses (key : List Byte) (s : State) : (loadKey key s).responses = s.responses := rfl

@[simp] theorem kstep_keyValid (s : State) : (kstep s).keyValid = s.keyValid := rfl
@[simp] theorem kstep_x (s : State) : (kstep s).x = s.x := rfl
@[simp] theorem kstep_v (s : State) : (kstep s).v = s.v := rfl
@[simp] theorem kstep_rnd (s : State) : (kstep s).rnd = s.rnd + 1 := rfl
@[simp] theorem kstep_dir (s : State) : (kstep s).dir = s.dir := rfl
@[simp] theorem kstep_cfg (s : State) : (kstep s).cfg = s.cfg := rfl
@[simp] theorem kstep_capCache (s : State) : (kstep s).capCache = s.capCache := rfl
@[simp] theorem kstep_host (s : State) : (kstep s).host = s.host := rfl
@[simp] theorem kstep_responses (s : State) : (kstep s).responses = s.responses := rfl

@[simp] theorem loadBlock_keyValid (b : List Byte) (d : Dir) (s : State) :
    (loadBlock b d s).keyValid = s.keyValid := rfl
@[simp] theorem loadBlock_rk (b : List Byte) (d : Dir) (s : State) : (loadBlock b d s).rk = s.rk := rfl
@[simp] theorem loadBlock_k (b : List Byte) (d : Dir) (s : State) : (loadBlock b d s).k = s.k := rfl
@[simp] theorem loadBlock_x (b : List Byte) (d : Dir) (s : State) : (loadBlock b d s).x = words4 b := rfl
@[simp] theorem loadBlock_v (b : List Byte) (d : Dir) (s : State) : (loadBlock b d s).v = s.v := rfl
@[simp] theorem loadBlock_rnd (b : List Byte) (d : Dir) (s : State) : (loadBlock b d s).rnd = 0 := rfl
@[simp] theorem loadBlock_dir (b : List Byte) (d : Dir) (s : State) : (loadBlock b d s).dir = d := rfl
@[simp] theorem loadBlock_cfg (b : List Byte) (d : Dir) (s : State) : (loadBlock b d s).cfg = s.cfg := rfl
@[simp] theorem loadBlock_capCache (b : List Byte) (d : Dir) (s : State) :
    (loadBlock b d s).capCache = s.capCache := rfl
@[simp] theorem loadBlock_host (b : List Byte) (d : Dir) (s : State) : (loadBlock b d s).host = s.host := rfl
@[simp] theorem loadBlock_responses (b : List Byte) (d : Dir) (s : State) :
    (loadBlock b d s).responses = s.responses := rfl

@[simp] theorem rstep_keyValid (s : State) : (rstep s).keyValid = s.keyValid := rfl
@[simp] theorem rstep_rk (s : State) : (rstep s).rk = s.rk := rfl
@[simp] theorem rstep_k (s : State) : (rstep s).k = s.k := rfl
@[simp] theorem rstep_v (s : State) : (rstep s).v = s.v := rfl
@[simp] theorem rstep_rnd (s : State) : (rstep s).rnd = s.rnd + 1 := rfl
@[simp] theorem rstep_dir (s : State) : (rstep s).dir = s.dir := rfl
@[simp] theorem rstep_cfg (s : State) : (rstep s).cfg = s.cfg := rfl
@[simp] theorem rstep_capCache (s : State) : (rstep s).capCache = s.capCache := rfl
@[simp] theorem rstep_host (s : State) : (rstep s).host = s.host := rfl
@[simp] theorem rstep_responses (s : State) : (rstep s).responses = s.responses := rfl

@[simp] theorem loadBatch_keyValid (p : List Byte) (d : Dir) (s : State) :
    (loadBatch p d s).keyValid = s.keyValid := rfl
@[simp] theorem loadBatch_rk (p : List Byte) (d : Dir) (s : State) : (loadBatch p d s).rk = s.rk := rfl
@[simp] theorem loadBatch_k (p : List Byte) (d : Dir) (s : State) : (loadBatch p d s).k = s.k := rfl
@[simp] theorem loadBatch_x (p : List Byte) (d : Dir) (s : State) : (loadBatch p d s).x = s.x := rfl
@[simp] theorem loadBatch_v (p : List Byte) (d : Dir) (s : State) : (loadBatch p d s).v = vload p := rfl
@[simp] theorem loadBatch_rnd (p : List Byte) (d : Dir) (s : State) : (loadBatch p d s).rnd = 0 := rfl
@[simp] theorem loadBatch_dir (p : List Byte) (d : Dir) (s : State) : (loadBatch p d s).dir = d := rfl
@[simp] theorem loadBatch_cfg (p : List Byte) (d : Dir) (s : State) : (loadBatch p d s).cfg = s.cfg := rfl
@[simp] theorem loadBatch_capCache (p : List Byte) (d : Dir) (s : State) :
    (loadBatch p d s).capCache = s.capCache := rfl
@[simp] theorem loadBatch_host (p : List Byte) (d : Dir) (s : State) : (loadBatch p d s).host = s.host := rfl
@[simp] theorem loadBatch_responses (p : List Byte) (d : Dir) (s : State) :
    (loadBatch p d s).responses = s.responses := rfl

@[simp] theorem vrstep_keyValid (s : State) : (vrstep s).keyValid = s.keyValid := rfl
@[simp] theorem vrstep_rk (s : State) : (vrstep s).rk = s.rk := rfl
@[simp] theorem vrstep_k (s : State) : (vrstep s).k = s.k := rfl
@[simp] theorem vrstep_x (s : State) : (vrstep s).x = s.x := rfl
@[simp] theorem vrstep_rnd (s : State) : (vrstep s).rnd = s.rnd + 1 := rfl
@[simp] theorem vrstep_dir (s : State) : (vrstep s).dir = s.dir := rfl
@[simp] theorem vrstep_cfg (s : State) : (vrstep s).cfg = s.cfg := rfl
@[simp] theorem vrstep_capCache (s : State) : (vrstep s).capCache = s.capCache := rfl
@[simp] theorem vrstep_host (s : State) : (vrstep s).host = s.host := rfl
@[simp] theorem vrstep_responses (s : State) : (vrstep s).responses = s.responses := rfl

@[simp] theorem capq_keyValid (s : State) : (capq s).keyValid = s.keyValid := by unfold capq; split <;> rfl
@[simp] theorem capq_rk (s : State) : (capq s).rk = s.rk := by unfold capq; split <;> rfl
@[simp] theorem capq_k (s : State) : (capq s).k = s.k := by unfold capq; split <;> rfl
@[simp] theorem capq_x (s : State) : (capq s).x = s.x := by unfold capq; split <;> rfl
@[simp] theorem capq_v (s : State) : (capq s).v = s.v := by unfold capq; split <;> rfl
@[simp] theorem capq_rnd (s : State) : (capq s).rnd = s.rnd := by unfold capq; split <;> rfl
@[simp] theorem capq_dir (s : State) : (capq s).dir = s.dir := by unfold capq; split <;> rfl
@[simp] theorem capq_cfg (s : State) : (capq s).cfg = s.cfg := by unfold capq; split <;> rfl
@[simp] theorem capq_host (s : State) : (capq s).host = s.host := by unfold capq; split <;> rfl
@[simp] theorem capq_responses (s : State) : (capq s).responses = s.responses := by unfold capq; split <;> rfl

@[simp] theorem resetEvent_keyValid (s : State) : (resetEvent s).keyValid = false := rfl
@[simp] theorem resetEvent_cfg (s : State) : (resetEvent s).cfg = s.cfg := rfl
@[simp] theorem resetEvent_capCache (s : State) : (resetEvent s).capCache = none := rfl
@[simp] theorem resetEvent_host (s : State) : (resetEvent s).host = s.host := rfl
@[simp] theorem resetEvent_responses (s : State) : (resetEvent s).responses = s.responses := rfl

@[simp] theorem presentNext_keyValid (bytes : List Byte) (s : State) :
    (presentNext bytes s).keyValid = s.keyValid := rfl
@[simp] theorem presentNext_rk (bytes : List Byte) (s : State) : (presentNext bytes s).rk = s.rk := rfl
@[simp] theorem presentNext_k (bytes : List Byte) (s : State) : (presentNext bytes s).k = s.k := rfl
@[simp] theorem presentNext_x (bytes : List Byte) (s : State) : (presentNext bytes s).x = s.x := rfl
@[simp] theorem presentNext_v (bytes : List Byte) (s : State) : (presentNext bytes s).v = s.v := rfl
@[simp] theorem presentNext_rnd (bytes : List Byte) (s : State) : (presentNext bytes s).rnd = s.rnd := rfl
@[simp] theorem presentNext_dir (bytes : List Byte) (s : State) : (presentNext bytes s).dir = s.dir := rfl
@[simp] theorem presentNext_cfg (bytes : List Byte) (s : State) : (presentNext bytes s).cfg = s.cfg := rfl
@[simp] theorem presentNext_capCache (bytes : List Byte) (s : State) :
    (presentNext bytes s).capCache = s.capCache := rfl
@[simp] theorem presentNext_host (bytes : List Byte) (s : State) :
    (presentNext bytes s).host = .command bytes :: s.host := rfl
@[simp] theorem presentNext_responses (bytes : List Byte) (s : State) :
    (presentNext bytes s).responses = s.responses := rfl

end Sys2Proof.Machine
end

