-- ==== Sys2Proof/Laws/Words.lean ====
section
/-! SUPPORT. The laws of groups of four, of bytes and words, and of register and round numbers. -/

namespace Sys2Proof

@[simp] theorem Quad.get_set_same {α : Type} (q : Quad α) (i : Fin 4) (a : α) : (q.set i a).get i = a := by
  match i with
  | 0 => rfl
  | 1 => rfl
  | 2 => rfl
  | 3 => rfl

theorem Quad.get_set_other {α : Type} (q : Quad α) {i j : Fin 4} (a : α) (h : j ≠ i) :
    (q.set i a).get j = q.get j := by
  match i, j with
  | 0, 0 => exact absurd rfl h
  | 0, 1 => rfl
  | 0, 2 => rfl
  | 0, 3 => rfl
  | 1, 0 => rfl
  | 1, 1 => exact absurd rfl h
  | 1, 2 => rfl
  | 1, 3 => rfl
  | 2, 0 => rfl
  | 2, 1 => rfl
  | 2, 2 => exact absurd rfl h
  | 2, 3 => rfl
  | 3, 0 => rfl
  | 3, 1 => rfl
  | 3, 2 => rfl
  | 3, 3 => exact absurd rfl h

/-- A group of four read from its `i`-th thing on. -/
def Quad.from {α : Type} (q : Quad α) (i : Fin 4) : Quad α := ⟨q.get i, q.get (i + 1), q.get (i + 2), q.get (i + 3)⟩

@[simp] theorem Quad.from_zero {α : Type} (q : Quad α) : q.from 0 = q := rfl

/-- Replacing the thing a reading starts from and starting one later drops the first and appends the new one. -/
theorem Quad.from_set_next {α : Type} (q : Quad α) (i : Fin 4) (a : α) :
    (q.set i a).from (i + 1) = ⟨q.get (i + 1), q.get (i + 2), q.get (i + 3), a⟩ := by
  match i with
  | 0 => rfl
  | 1 => rfl
  | 2 => rfl
  | 3 => rfl

theorem roundIndex_ofNat {n : Nat} (h : n < 32) : roundIndex (BitVec.ofNat 6 n) = ⟨n, h⟩ := by
  apply Fin.ext
  have h64 : n % 64 = n := Nat.mod_eq_of_lt (by omega)
  simp [roundIndex, h64, Nat.mod_eq_of_lt h]

theorem target_succ (n : Nat) (h : n < 32) : (Fin.ofNat 4 (n + 1) : Fin 4) = target ⟨n, h⟩ + 1 := by
  apply Fin.ext
  simp [target, Fin.ofNat, Fin.val_add]

theorem getElem_wordByte (w : Word) {m i : Nat} (hm : m < 4) (hi : i < 8) :
    (wordByte w m)[i] = w[24 - 8 * m + i]'(by omega) := by
  simp [wordByte, BitVec.getLsbD_eq_getElem (show 24 - 8 * m + i < 32 by omega)]

theorem getElem_be32 (b0 b1 b2 b3 : Byte) {i : Nat} (hi : i < 32) :
    (be32 b0 b1 b2 b3)[i] =
      if h : i < 8 then b3[i] else if h : i < 16 then b2[i - 8] else if h : i < 24 then b1[i - 16] else b0[i - 24] := by
  simp only [be32, BitVec.getElem_or, BitVec.getElem_shiftLeft, BitVec.getElem_setWidth]
  split_ifs with h1 h2 h3 <;> simp [BitVec.getLsbD_eq_getElem, h1] <;> grind

theorem getElem_rotl32 (w : Word) {n i : Nat} (hn : n < 32) (hi : i < 32) :
    (rotl32 w n)[i] = if h : i < n then w[32 - n + i] else w[i - n] := by
  simp only [rotl32, BitVec.getElem_or, BitVec.getElem_shiftLeft, BitVec.getElem_ushiftRight]
  split_ifs with h <;> grind

theorem be32_bytes (w : Word) : be32 (wordByte w 0) (wordByte w 1) (wordByte w 2) (wordByte w 3) = w := by
  ext i hi
  simp only [getElem_be32 _ _ _ _ hi]
  split_ifs <;> rw [getElem_wordByte] <;> first | omega | (congr 1; omega)

/-- The four bytes of a word made from four bytes. -/
theorem wordByte_be32 (b0 b1 b2 b3 : Byte) :
    wordByte (be32 b0 b1 b2 b3) 0 = b0 ∧ wordByte (be32 b0 b1 b2 b3) 1 = b1 ∧
      wordByte (be32 b0 b1 b2 b3) 2 = b2 ∧ wordByte (be32 b0 b1 b2 b3) 3 = b3 := by
  refine ⟨?_, ?_, ?_, ?_⟩ <;>
    (ext i hi
     rw [getElem_wordByte _ (by omega) hi, getElem_be32]
     split_ifs <;> first | omega | (congr 1; omega))

end Sys2Proof
end

