-- ==== Sys2Proof/Laws/Sliding.lean ====
section
/-! SUPPORT. The rolling registers of the key schedule and of the scalar engine hold what the sliding recurrences of R125
and R154 give. -/

namespace Sys2Proof.Machine

open Sys2Proof.Safety

theorem slide_take_succ (f : Word → Word) (q : Quad Word) (ks : List Word) (n : Nat) (h : n < ks.length) :
    slide f q (ks.take (n + 1)) = slideStep f (slide f q (ks.take n)) ks[n] := by
  rw [slide, List.take_add_one, List.getElem?_eq_getElem h, Option.toList_some, List.foldl_append]
  rfl

theorem keysInOrder_length (rk : Vector Word 32) (d : Dir) : (keysInOrder rk d).length = 32 := by
  cases d <;> simp [keysInOrder]

theorem keysInOrder_getElem (rk : Vector Word 32) (d : Dir) (n : Nat) (h : n < 32) :
    (keysInOrder rk d)[n]'(by rw [keysInOrder_length]; exact h) = rk[kidx ⟨n, h⟩ d] := by
  cases d with
  | enc => simp [keysInOrder, kidx]
  | dec =>
    simp only [keysInOrder, kidx, List.getElem_reverse, Vector.length_toList, Vector.getElem_toList]
    congr 1
    simp [Fin.sub_def]
    omega

/-- One round on the rolling words is one step of the recurrence on the words read from the round's target on. -/
theorem rstep_slides (s : State) (n : Nat) (h : n < 32) (hn : roundIndex s.rnd = ⟨n, h⟩) :
    (rstep s).x.from (Fin.ofNat 4 (n + 1)) =
      slideStep roundT (s.x.from (Fin.ofNat 4 n)) s.rk[kidx ⟨n, h⟩ s.dir] := by
  rw [target_succ n h]
  simp only [rstep, hn, Quad.from_set_next]
  rfl

theorem rounds_slide (s : State) (h0 : s.rnd = 0) (n : Nat) (h : n ≤ 32) :
    (repeatStep rstep n s).x.from (Fin.ofNat 4 n) = slide roundT s.x ((keysInOrder s.rk s.dir).take n) := by
  induction n with
  | zero => rfl
  | succ n ih =>
    have hr : (repeatStep rstep n s).rnd = BitVec.ofNat 6 n := by
      simpa [h0] using repeatStep_counts rstep rstep_rnd n s
    have hi : roundIndex (repeatStep rstep n s).rnd = ⟨n, h⟩ := by rw [hr, roundIndex_ofNat]
    have hk : (repeatStep rstep n s).rk = s.rk := repeatStep_keeps_field rstep State.rk rstep_rk n s
    have hd : (repeatStep rstep n s).dir = s.dir := repeatStep_keeps_field rstep State.dir rstep_dir n s
    rw [repeatStep_succ_last, rstep_slides _ n h hi, ih (by omega),
      slide_take_succ _ _ _ n (by rw [keysInOrder_length]; exact h), keysInOrder_getElem _ _ n h]
    simp only [hk, hd]

/-- The state after a block: only X, RND and DIR have changed, X as the sliding recurrence says. -/
theorem runBlock_eq (b : List Byte) (d : Dir) (s : State) :
    runBlock b d s =
      { s with x := slide roundT (words4 b) (keysInOrder s.rk d), rnd := 32, dir := d } := by
  have hx := rounds_slide (loadBlock b d s) rfl 32 (by omega)
  rw [List.take_of_length_le (by rw [keysInOrder_length]), show (Fin.ofNat 4 32 : Fin 4) = 0 from rfl,
    Quad.from_zero] at hx
  have hn := repeatStep_counts rstep rstep_rnd 32 (loadBlock b d s)
  have keeps {α : Type} (f : State → α) (hf : ∀ s, f (rstep s) = f s) :=
    repeatStep_keeps_field rstep f hf 32 (loadBlock b d s)
  show repeatStep rstep 32 (loadBlock b d s) = _
  generalize repeatStep rstep 32 (loadBlock b d s) = t at hx hn keeps
  exact State.ext (keeps _ rstep_keyValid) (keeps _ rstep_rk) (keeps _ rstep_k) hx (keeps _ rstep_v)
    hn (keeps _ rstep_dir) (keeps _ rstep_cfg) (keeps _ rstep_capCache)
    (keeps _ rstep_host) (keeps _ rstep_responses)

theorem emitBlock_runBlock (b : List Byte) (d : Dir) (s : State) :
    emitBlock (runBlock b d s) = cipher s.rk d b := by
  rw [runBlock_eq]
  rfl

/-- One sub-step on the rolling words is one step of the recurrence. -/
theorem kstep_slides (s : State) (n : Nat) (h : n < 32) (hn : roundIndex s.rnd = ⟨n, h⟩) :
    (kstep s).k.from (Fin.ofNat 4 (n + 1)) = slideStep keyT (s.k.from (Fin.ofNat 4 n)) ck[n] := by
  rw [target_succ n h]
  simp only [kstep, hn, Quad.from_set_next]
  rfl

theorem kstep_rk_eq (s : State) (n : Nat) (h : n < 32) (hn : roundIndex s.rnd = ⟨n, h⟩) :
    (kstep s).rk = s.rk.set n (slideStep keyT (s.k.from (Fin.ofNat 4 n)) ck[n]).w3 := by
  simp only [kstep, hn]
  rfl

theorem ksteps_slide (s : State) (h0 : s.rnd = 0) (n : Nat) (h : n ≤ 32) :
    (repeatStep kstep n s).k.from (Fin.ofNat 4 n) = slide keyT s.k (ck.toList.take n) ∧
      ∀ m (hm : m < n), (repeatStep kstep n s).rk[m] = (slide keyT s.k (ck.toList.take (m + 1))).w3 := by
  induction n with
  | zero => exact ⟨rfl, fun m hm => absurd hm (by omega)⟩
  | succ n ih =>
    obtain ⟨ihk, ihr⟩ := ih (by omega)
    have hr : (repeatStep kstep n s).rnd = BitVec.ofNat 6 n := by
      simpa [h0] using repeatStep_counts kstep kstep_rnd n s
    have hi : roundIndex (repeatStep kstep n s).rnd = ⟨n, h⟩ := by rw [hr, roundIndex_ofNat]
    have hlast : slide keyT s.k (ck.toList.take (n + 1)) =
        slideStep keyT (slide keyT s.k (ck.toList.take n)) ck[n] := by
      rw [slide_take_succ _ _ _ n (by simpa using h)]
      simp
    refine ⟨?_, fun m hm => ?_⟩
    · rw [repeatStep_succ_last, kstep_slides _ n h hi, ihk, hlast]
    · simp only [repeatStep_succ_last, kstep_rk_eq _ n h hi, Vector.getElem_set]
      split
      · next heq => subst heq; rw [hlast, ihk]
      · next hne => exact ihr m (by omega)

/-- The state after the key schedule: only RK, K and RND have changed, RK as the sliding recurrence says. -/
theorem kexpand_eq (key : List Byte) (s : State) :
    kexpand key s =
      { s with
        rk := roundKeys key
        k := slide keyT (Quad.zipWith (· ^^^ ·) (words4 key) fk) ck.toList
        rnd := 32 } := by
  obtain ⟨hk, hr⟩ := ksteps_slide (loadKey key s) rfl 32 (by omega)
  rw [List.take_of_length_le (by simp), show (Fin.ofNat 4 32 : Fin 4) = 0 from rfl, Quad.from_zero] at hk
  have hn := repeatStep_counts kstep kstep_rnd 32 (loadKey key s)
  have keeps {α : Type} (f : State → α) (hf : ∀ s, f (kstep s) = f s) :=
    repeatStep_keeps_field kstep f hf 32 (loadKey key s)
  have hrk : (repeatStep kstep 32 (loadKey key s)).rk = roundKeys key := by
    apply Vector.ext
    intro m hm
    simp only [hr m hm, roundKeys, roundKey, Vector.getElem_ofFn]
    rfl
  show repeatStep kstep 32 (loadKey key s) = _
  generalize repeatStep kstep 32 (loadKey key s) = t at hk hn hrk keeps
  exact State.ext (keeps _ kstep_keyValid) hrk hk (keeps _ kstep_x) (keeps _ kstep_v)
    hn (keeps _ kstep_dir) (keeps _ kstep_cfg) (keeps _ kstep_capCache)
    (keeps _ kstep_host) (keeps _ kstep_responses)

end Sys2Proof.Machine
end

