-- ==== Sys2Proof/Laws/Steps.lean ====
section
/-! SUPPORT. What each shared operation of the commands, and a step, can do, said once. -/

namespace Sys2Proof.Machine

open Sys2Proof.Safety

theorem validated_of_none {i : Instr} {body : State → Result} {s : State} (h : validate i = none) :
    validated i body s = body s := by
  simp only [validated, h]

theorem validated_of_some {i : Instr} {body : State → Result} {s : State} {r : Response} (h : validate i = some r) :
    validated i body s = .next (respond r s) := by
  simp only [validated, h, raise]

theorem transform_without_key {i : Instr} {body : State → Result} {s : State} (h : s.keyValid = false) :
    transform i body s = .next (respond .noKey s) := by
  simp [transform, h, raise]

theorem transform_with_key {i : Instr} {body : State → Result} {s : State} (h : s.keyValid = true) :
    transform i body s = validated i body s := by
  simp [transform, h]

/-- A check that raises an error has failed, and the error is the check's. -/
theorem check_raises {c : Prop} [Decidable c] {e r : Response} (h : (if c then none else some e) = some r) :
    ¬c ∧ e = r := by
  split at h
  · cases h
  · next hn => exact ⟨hn, Option.some.inj h⟩

/-- A check that raises none has passed. -/
theorem check_passes {c : Prop} [Decidable c] {e : Response} (h : (if c then none else some e) = none) : c := by
  split at h
  · assumption
  · cases h

/-- A length error is one of the two the source names, and only for a length other than the one it carries. -/
theorem validate_some {i : Instr} {r : Response} (h : validate i = some r) :
    (∃ p, i = .setkey p ∧ p.length ≠ 16 ∧ r = .invalidKeySize 16) ∨
      (i.isTransform = true ∧ ∃ n, (n = 16 ∨ n = 64) ∧ i.payload.length ≠ n ∧ r = .invalidBlockSize n) := by
  cases i with
  | setkey p =>
    obtain ⟨hp, rfl⟩ : p.length ≠ 16 ∧ .invalidKeySize 16 = r := check_raises h
    exact .inl ⟨p, rfl, hp, rfl⟩
  | enc p =>
    obtain ⟨hp, rfl⟩ : p.length ≠ 16 ∧ .invalidBlockSize 16 = r := check_raises h
    exact .inr ⟨rfl, 16, .inl rfl, hp, rfl⟩
  | dec p =>
    obtain ⟨hp, rfl⟩ : p.length ≠ 16 ∧ .invalidBlockSize 16 = r := check_raises h
    exact .inr ⟨rfl, 16, .inl rfl, hp, rfl⟩
  | enc4 p =>
    obtain ⟨hp, rfl⟩ : p.length ≠ 64 ∧ .invalidBlockSize 64 = r := check_raises h
    exact .inr ⟨rfl, 64, .inr rfl, hp, rfl⟩
  | dec4 p =>
    obtain ⟨hp, rfl⟩ : p.length ≠ 64 ∧ .invalidBlockSize 64 = r := check_raises h
    exact .inr ⟨rfl, 64, .inr rfl, hp, rfl⟩

/-- SM4.SETKEY's work once the length has passed. -/
theorem execSetkey_of_length {p : List Byte} {s : State} (h : p.length = 16) :
    execSetkey p s = .next
      { s with
        keyValid := true
        rk := roundKeys p
        k := slide keyT (Quad.zipWith (· ^^^ ·) (words4 p) fk) ck.toList
        rnd := 32
        responses := s.responses ++ [.ok []] } := by
  rw [execSetkey, validated_of_none (by simp [validate, keyBytes, h])]
  simp only [finish, respond, kexpand_eq]

/-- A scalar transform's work: the answer is the cipher's, and only X, RND and DIR have changed. -/
theorem crypt1_eq (b : List Byte) (d : Dir) (s : State) :
    crypt1 b d s = .next
      { s with
        x := slide roundT (words4 b) (keysInOrder s.rk d)
        rnd := 32
        dir := d
        responses := s.responses ++ [.ok (cipher s.rk d b)] } := by
  rw [crypt1, finish, respond, emitBlock_runBlock]
  simp only [runBlock_eq]

/-- What a step can do. -/
theorem step_cases {s t : State} (h : step s = .next t) :
    (s.host = [] ∧ t = s) ∨
      (∃ bytes rest i, s.host = .command bytes :: rest ∧ decode bytes = .command i [] ∧
        exec i { s with host := rest } = .next t) ∨
      (∃ bytes rest op, s.host = .command bytes :: rest ∧ decode bytes = .reserved op [] ∧
        t = respond .illegalCommand { s with host := rest }) ∨
      (∃ rest, (s.host = .reset :: rest ∨ ∃ bytes, s.host = .resetDuring bytes :: rest) ∧
        t = resetEvent { s with host := rest }) := by
  unfold step accept at h
  match hh : s.host with
  | [] => simp only [hh] at h; cases h; exact .inl ⟨rfl, rfl⟩
  | .reset :: rest => simp only [hh] at h; cases h; exact .inr (.inr (.inr ⟨rest, .inl rfl, rfl⟩))
  | .resetDuring b :: rest =>
    simp only [hh] at h; cases h; exact .inr (.inr (.inr ⟨rest, .inr ⟨b, rfl⟩, rfl⟩))
  | .command bytes :: rest =>
    simp only [hh, acceptCommand] at h
    match hd : decode bytes with
    | .command i [] => simp only [hd] at h; exact .inr (.inl ⟨bytes, rest, i, rfl, hd, h⟩)
    | .reserved op [] =>
      simp only [hd] at h; cases h; exact .inr (.inr (.inl ⟨bytes, rest, op, rfl, hd, rfl⟩))
    | .incomplete => simp only [hd] at h; cases h
    | .command _ (_ :: _) => simp only [hd] at h; cases h
    | .reserved _ (_ :: _) => simp only [hd] at h; cases h

end Sys2Proof.Machine
end

