-- ==== Sys2Proof/Laws/VectorLanes.lean ====
section
/-! SUPPORT. The vector engine lane by lane: substitution, diffusion, round and batch are the scalar ones on each lane. -/

namespace Sys2Proof

theorem vecByte_vecOfBytes (f : Nat → Byte) {p : Nat} (h : p < 16) : vecByte (vecOfBytes f) p = f p := by
  have lane0 := wordByte_be32 (f 0) (f 1) (f 2) (f 3)
  have lane1 := wordByte_be32 (f 4) (f 5) (f 6) (f 7)
  have lane2 := wordByte_be32 (f 8) (f 9) (f 10) (f 11)
  have lane3 := wordByte_be32 (f 12) (f 13) (f 14) (f 15)
  match p, h with
  | 0, _ => exact lane0.1
  | 1, _ => exact lane0.2.1
  | 2, _ => exact lane0.2.2.1
  | 3, _ => exact lane0.2.2.2
  | 4, _ => exact lane1.1
  | 5, _ => exact lane1.2.1
  | 6, _ => exact lane1.2.2.1
  | 7, _ => exact lane1.2.2.2
  | 8, _ => exact lane2.1
  | 9, _ => exact lane2.2.1
  | 10, _ => exact lane2.2.2.1
  | 11, _ => exact lane2.2.2.2
  | 12, _ => exact lane3.1
  | 13, _ => exact lane3.2.1
  | 14, _ => exact lane3.2.2.1
  | 15, _ => exact lane3.2.2.2
  | n + 16, h => omega

/-- Two vectors are made of the same bytes if they agree at the sixteen positions. -/
theorem vecOfBytes_congr {f g : Nat → Byte} (h : ∀ p, p < 16 → f p = g p) : vecOfBytes f = vecOfBytes g := by
  simp only [vecOfBytes, h 0 (by omega), h 1 (by omega), h 2 (by omega), h 3 (by omega), h 4 (by omega),
    h 5 (by omega), h 6 (by omega), h 7 (by omega), h 8 (by omega), h 9 (by omega), h 10 (by omega),
    h 11 (by omega), h 12 (by omega), h 13 (by omega), h 14 (by omega), h 15 (by omega)]

theorem vecByte_vecMapBytes (f : Byte → Byte) (v : Vec) {p : Nat} (h : p < 16) :
    vecByte (vecMapBytes f v) p = f (vecByte v p) := by
  rw [vecMapBytes, vecByte_vecOfBytes _ h]

theorem vecByte_vecShuffle (index : Nat → Nat) (v : Vec) {p : Nat} (h : p < 16) :
    vecByte (vecShuffle index v) p = vecByte v (index p) := by
  rw [vecShuffle, vecByte_vecOfBytes _ h]

theorem sr_lt (p : Nat) : sr p < 16 := by unfold sr; omega

theorem isr_lt (p : Nat) : isr p < 16 := by unfold isr; omega

theorem isr_sr {p : Nat} (h : p < 16) : isr (sr p) = p := by
  interval_cases p <;> rfl

theorem vxor_zero (v : Vec) : vxor v zero128 = v := by
  simp [vxor, zero128, Quad.zipWith]

/-- The surrogate's final round after the pre-permutation substitutes in place. -/
theorem bcfr_visr (v : Vec) : bcfr (visr v) zero128 = vecMapBytes aesS v := by
  rw [bcfr, vxor_zero, vecMapBytes, vecMapBytes]
  apply vecOfBytes_congr
  intro p hp
  simp only [vecShuffle, visr, vecByte_vecOfBytes _ hp, vecByte_vecOfBytes _ (sr_lt p), isr_sr hp]

/-- The substitution through the surrogate is TAU on each lane: byte by byte it is the Substitution Table, which is
evaluated on every byte. -/
theorem vsub_eq (v : Vec) : vsub v = Quad.map tau v := by
  have byte : ∀ b : Byte, a2 (aesS (a1 b)) = sbox b := by decide +kernel
  have bytes : vsub v = vecMapBytes sbox v := by
    rw [vsub, bcfr_visr, vaff2, vecMapBytes, vecMapBytes, vecMapBytes]
    apply vecOfBytes_congr
    intro p hp
    simp only [vaff1, vecMapBytes, vecByte_vecOfBytes _ hp, byte]
  rw [bytes]
  rfl

theorem rotl32_8_bytes (w : Word) :
    be32 (wordByte w 1) (wordByte w 2) (wordByte w 3) (wordByte w 0) = rotl32 w 8 := by
  ext i hi
  rw [getElem_be32, getElem_rotl32 _ (by omega) hi]
  split_ifs <;> first | omega | (rw [getElem_wordByte] <;> first | omega | (congr 1; omega))

theorem rotl32_16_bytes (w : Word) :
    be32 (wordByte w 2) (wordByte w 3) (wordByte w 0) (wordByte w 1) = rotl32 w 16 := by
  ext i hi
  rw [getElem_be32, getElem_rotl32 _ (by omega) hi]
  split_ifs <;> first | omega | (rw [getElem_wordByte] <;> first | omega | (congr 1; omega))

theorem rotl32_24_bytes (w : Word) :
    be32 (wordByte w 3) (wordByte w 0) (wordByte w 1) (wordByte w 2) = rotl32 w 24 := by
  ext i hi
  rw [getElem_be32, getElem_rotl32 _ (by omega) hi]
  split_ifs <;> first | omega | (rw [getElem_wordByte] <;> first | omega | (congr 1; omega))

theorem vrotb_8_eq (v : Vec) : vrotb v 8 = Quad.map (rotl32 · 8) v := by
  simp only [Quad.map, ← rotl32_8_bytes]
  rfl

theorem vrotb_16_eq (v : Vec) : vrotb v 16 = Quad.map (rotl32 · 16) v := by
  simp only [Quad.map, ← rotl32_16_bytes]
  rfl

theorem vrotb_24_eq (v : Vec) : vrotb v 24 = Quad.map (rotl32 · 24) v := by
  simp only [Quad.map, ← rotl32_24_bytes]
  rfl

/-- Rotation distributes over XOR. -/
theorem rotl32_xor (a b : Word) {n : Nat} (h : n < 32) : rotl32 (a ^^^ b) n = rotl32 a n ^^^ rotl32 b n := by
  ext i hi
  simp only [BitVec.getElem_xor, getElem_rotl32 _ h hi]
  split <;> rfl

/-- Rotations compose by adding amounts. -/
theorem rotl32_rotl32 (b : Word) {m n : Nat} (h : m + n < 32) : rotl32 (rotl32 b m) n = rotl32 b (m + n) := by
  ext i hi
  have r (w : Word) {k j : Nat} (hk : k < 32) (hj : j < 32) := getElem_rotl32 w hk hj
  grind

/-- The factored diffusion of one lane is `L` (R213). -/
theorem diffuseFactored_eq (b : Word) : diffuseFactored b = diffuse b := by
  simp only [diffuseFactored, diffuse, rotl32_xor _ _ (show 2 < 32 by decide), rotl32_rotl32 _ (show 8 + 2 < 32 by decide),
    rotl32_rotl32 _ (show 16 + 2 < 32 by decide), ← BitVec.xor_assoc]

theorem vl_eq (v : Vec) : vl v = Quad.map diffuse v := by
  simp only [vl, vrotb_8_eq, vrotb_16_eq, vrotb_24_eq, Quad.map, ← diffuseFactored_eq]
  rfl

/-- R213's other arrangement of the vector diffusion is the same function. -/
theorem vlSeparate_eq (v : Vec) : vlSeparate v = vl v := by
  have two (w : Vec) : vrot2 w = Quad.map (rotl32 · 2) w := rfl
  rw [vl_eq]
  simp only [vlSeparate, two, vrotb_8_eq, vrotb_16_eq, vrotb_24_eq, Quad.map, vxor, Quad.zipWith, diffuse,
    rotl32_rotl32 _ (show 8 + 2 < 32 by decide), rotl32_rotl32 _ (show 16 + 2 < 32 by decide)]

theorem vt_eq (u : Vec) : Machine.vt u = Quad.map roundT u := by
  rw [Machine.vt, vsub_eq, vl_eq]
  rfl

@[simp] theorem Quad.get_map {α β : Type} (f : α → β) (q : Quad α) (i : Fin 4) : (q.map f).get i = f (q.get i) := by
  match i with
  | 0 => rfl
  | 1 => rfl
  | 2 => rfl
  | 3 => rfl

@[simp] theorem Quad.get_zipWith {α β γ : Type} (f : α → β → γ) (p : Quad α) (q : Quad β) (i : Fin 4) :
    (Quad.zipWith f p q).get i = f (p.get i) (q.get i) := by
  match i with
  | 0 => rfl
  | 1 => rfl
  | 2 => rfl
  | 3 => rfl

theorem Quad.map_set {α β : Type} (f : α → β) (q : Quad α) (i : Fin 4) (a : α) :
    (q.set i a).map f = (q.map f).set i (f a) := by
  match i with
  | 0 => rfl
  | 1 => rfl
  | 2 => rfl
  | 3 => rfl

namespace Machine

open Sys2Proof.Safety

/-- The words of block `l` in the vector registers: lane `l` of each. -/
def laneWords (v : Quad Vec) (l : Fin 4) : Quad Word := v.map (·.get l)

@[simp] theorem vbcast_get (k : Word) (l : Fin 4) : (vbcast k).get l = k := by
  match l with
  | 0 => rfl
  | 1 => rfl
  | 2 => rfl
  | 3 => rfl

/-- One vector round on lane `l` is one step of the recurrence on that lane's words. -/
theorem vrstep_slides (s : State) (l : Fin 4) (n : Nat) (h : n < 32) (hn : roundIndex s.rnd = ⟨n, h⟩) :
    (laneWords (vrstep s).v l).from (Fin.ofNat 4 (n + 1)) =
      slideStep roundT ((laneWords s.v l).from (Fin.ofNat 4 n)) s.rk[kidx ⟨n, h⟩ s.dir] := by
  rw [target_succ n h]
  simp only [vrstep, hn, laneWords, Quad.map_set, Quad.from_set_next, Quad.get_map, vxor, Quad.get_zipWith, vt_eq,
    vbcast_get]
  simp only [slideStep, Quad.from, Quad.get_map]
  rfl

theorem vrounds_slide (s : State) (h0 : s.rnd = 0) (l : Fin 4) (n : Nat) (h : n ≤ 32) :
    (laneWords (repeatStep vrstep n s).v l).from (Fin.ofNat 4 n) =
      slide roundT (laneWords s.v l) ((keysInOrder s.rk s.dir).take n) := by
  induction n with
  | zero => rfl
  | succ n ih =>
    have hr : (repeatStep vrstep n s).rnd = BitVec.ofNat 6 n := by
      simpa [h0] using repeatStep_counts vrstep vrstep_rnd n s
    have hi : roundIndex (repeatStep vrstep n s).rnd = ⟨n, h⟩ := by rw [hr, roundIndex_ofNat]
    have hk : (repeatStep vrstep n s).rk = s.rk := repeatStep_keeps_field vrstep State.rk vrstep_rk n s
    have hd : (repeatStep vrstep n s).dir = s.dir := repeatStep_keeps_field vrstep State.dir vrstep_dir n s
    rw [repeatStep_succ_last, vrstep_slides _ l n h hi, ih (by omega),
      slide_take_succ _ _ _ n (by rw [keysInOrder_length]; exact h), keysInOrder_getElem _ _ n h]
    simp only [hk, hd]

/-- The state after a batch on the accelerated path: only V, RND and DIR have changed. -/
theorem runBatch_eq (p : List Byte) (d : Dir) (s : State) :
    runBatch p d s = { s with v := (runBatch p d s).v, rnd := 32, dir := d } := by
  have hn := repeatStep_counts vrstep vrstep_rnd 32 (loadBatch p d s)
  have keeps {α : Type} (f : State → α) (hf : ∀ s, f (vrstep s) = f s) :=
    repeatStep_keeps_field vrstep f hf 32 (loadBatch p d s)
  show repeatStep vrstep 32 (loadBatch p d s) = { s with v := (repeatStep vrstep 32 (loadBatch p d s)).v, rnd := 32, dir := d }
  generalize repeatStep vrstep 32 (loadBatch p d s) = t at hn keeps
  exact State.ext (keeps _ vrstep_keyValid) (keeps _ vrstep_rk) (keeps _ vrstep_k) (keeps _ vrstep_x) rfl hn
    (keeps _ vrstep_dir) (keeps _ vrstep_cfg) (keeps _ vrstep_capCache) (keeps _ vrstep_host)
    (keeps _ vrstep_responses)

theorem runBatch_lane (p : List Byte) (d : Dir) (s : State) (l : Fin 4) :
    laneWords (runBatch p d s).v l = slide roundT (laneWords (vload p) l) (keysInOrder s.rk d) := by
  have hx := vrounds_slide (loadBatch p d s) rfl l 32 (by omega)
  rw [List.take_of_length_le (by rw [keysInOrder_length]), show (Fin.ofNat 4 32 : Fin 4) = 0 from rfl,
    Quad.from_zero] at hx
  exact hx

/-- Word `j` of block `l` is word `4l + j` of the batch. -/
theorem wordAt_blockAt (p : List Byte) (l j : Nat) (hj : j < 4) : wordAt (blockAt p l) j = wordAt p (4 * l + j) := by
  simp only [wordAt, blockAt, blockBytes, List.getD_eq_getElem?_getD, List.getElem?_take, List.getElem?_drop]
  have e (m : Nat) (hm : m < 4) : (4 * j + m < 16) = True := by simp; omega
  have e0 : (4 * j < 16) = True := by simp; omega
  simp only [e0, e 1 (by omega), e 2 (by omega), e 3 (by omega), if_true]
  simp only [show 16 * l + 4 * j = 4 * (4 * l + j) by omega, ← Nat.add_assoc]

theorem vload_lane (p : List Byte) (l : Fin 4) : laneWords (vload p) l = words4 (blockAt p l) := by
  simp only [words4, wordAt_blockAt p l _ (by omega : 0 < 4), wordAt_blockAt p l _ (by omega : 1 < 4),
    wordAt_blockAt p l _ (by omega : 2 < 4), wordAt_blockAt p l _ (by omega : 3 < 4)]
  match l with
  | 0 => rfl
  | 1 => rfl
  | 2 => rfl
  | 3 => rfl

theorem emitLane_runBatch (p : List Byte) (d : Dir) (s : State) (l : Fin 4) :
    emitLane (runBatch p d s) l = cipher s.rk d (blockAt p l) := by
  have h := runBatch_lane p d s l
  rw [vload_lane] at h
  simp only [cipher, ← h]
  rfl

end Machine

end Sys2Proof
end

