-- ==== Sys2Proof/Laws/Commands.lean ====
section
/-! SUPPORT. What a batch transform can do, and what a command can do, said once. -/

namespace Sys2Proof.Machine

open Sys2Proof.Safety

/-- The accelerated path answers the four block transforms, and changes only V, RND and DIR. -/
theorem crypt4Acc_eq (p : List Byte) (d : Dir) (s : State) :
    crypt4Acc p d s = .next
      { s with
        v := (runBatch p d s).v
        rnd := 32
        dir := d
        responses := s.responses ++ [.ok (cipherBatch s.rk d p)] } := by
  have out : emitBatch (runBatch p d s) = cipherBatch s.rk d p := by
    simp only [emitBatch, emitLane_runBatch]
    rfl
  simp only [crypt4Acc, finish, respond, out]
  rw [runBatch_eq p d s]

/-- The fallback path answers the four block transforms, and changes only X, RND and DIR. -/
theorem crypt4Fallback_eq (p : List Byte) (d : Dir) (s : State) :
    crypt4Fallback p d s = .next
      { s with
        x := slide roundT (words4 (blockAt p 3)) (keysInOrder s.rk d)
        rnd := 32
        dir := d
        responses := s.responses ++ [.ok (cipherBatch s.rk d p)] } := by
  simp only [crypt4Fallback, finish, respond, runBlock_eq]
  simp [cipherBatch, emitBlock, cipher]

/-- What R185 asks of a model that gives the batch commands the accelerated path's meaning. -/
theorem paths_interchangeable (p : List Byte) (d : Dir) (s : State) : PathsInterchangeable p d s :=
  ⟨_, _, crypt4Acc_eq p d s, crypt4Fallback_eq p d s, rfl⟩

/-- A batch transform refuses a stale accelerated path, or answers the four block transforms and changes only working
registers and CAP_CACHE: V on the accelerated path, X on the fallback path. -/
theorem crypt4_cases (p : List Byte) (d : Dir) (s : State) :
    (capAnswer s = allCaps ∧ s.cfg.cap ≠ allCaps ∧ crypt4 p d s = .refused .staleCapability) ∨
      ∃ x v, crypt4 p d s = .next
          { s with
            x := x
            v := v
            rnd := 32
            dir := d
            capCache := (capq s).capCache
            responses := s.responses ++ [.ok (cipherBatch s.rk d p)] } ∧
        (capAnswer s = allCaps ∧ x = s.x ∨ capAnswer s ≠ allCaps ∧ v = s.v) := by
  by_cases h : capAnswer s = allCaps
  · by_cases hcap : s.cfg.cap = allCaps
    · refine .inr ⟨s.x, (runBatch p d (capq s)).v, ?_, .inl ⟨h, rfl⟩⟩
      simp only [crypt4, h, hcap, if_true, crypt4Acc_eq]
      simp
    · exact .inl ⟨h, hcap, by simp [crypt4, h, hcap]⟩
  · refine .inr ⟨slide roundT (words4 (blockAt p 3)) (keysInOrder s.rk d), s.v, ?_, .inr ⟨h, rfl⟩⟩
    simp only [crypt4, h, if_false, crypt4Fallback_eq]
    simp

/-- Every outcome a command can have. -/
inductive CommandOutcome (i : Instr) (s : State) : Result → Prop
  /-- It is answered with an error, for one of the three reasons, and nothing else changes. -/
  | error (r : Response) (isError : isError r = true) (may : mayAnswer i r)
      (why : (r = .illegalCommand ∧ (∃ p, i = .dec4 p) ∧ s.cfg.hasDec4 = false) ∨
        (r = .noKey ∧ i.isTransform = true ∧ s.keyValid = false) ∨ validate i = some r) :
      CommandOutcome i s (.next { s with responses := s.responses ++ [r] })
  /-- It sets the key. -/
  | key (p : List Byte) (isSetkey : i = .setkey p) (length : p.length = 16) (k : Quad Word) :
      CommandOutcome i s (.next
        { s with
          keyValid := true
          rk := roundKeys p
          k := k
          rnd := 32
          responses := s.responses ++ [.ok []] })
  /-- It transforms its payload. -/
  | output (x : Quad Word) (v : Quad Vec) (d : Dir) (out : List Byte) (cache : Option CapSet) (key : s.keyValid = true)
      (transform : i.isTransform = true) (may : mayAnswer i (.ok out)) (passed : validate i = none)
      (cached : cache = s.capCache ∨ cache = some (capAnswer s)) :
      CommandOutcome i s (.next
        { s with
          x := x
          v := v
          rnd := 32
          dir := d
          capCache := cache
          responses := s.responses ++ [.ok out] })
  /-- It is a batch that a stale cached answer sends to an accelerated path that is not there. -/
  | stale (p : List Byte) (batch : i = .enc4 p ∨ i = .dec4 p ∧ s.cfg.hasDec4 = true) (length : p.length = 64)
      (key : s.keyValid = true) (isCached : s.cfg.capCached = true) (answer : s.capCache = some 0b1111#4) (lacking : s.cfg.cap ≠ 0b1111#4) :
      CommandOutcome i s (.refused .staleCapability)

/-- A checked transform ends in an error or as its work ends. -/
theorem commandOutcome_transform {i : Instr} {body : State → Result} {s : State} (ht : i.isTransform = true)
    (noKey : mayAnswer i .noKey) (length : ∀ n, validate i = some (.invalidBlockSize n) → mayAnswer i (.invalidBlockSize n))
    (work : s.keyValid = true → validate i = none → CommandOutcome i s (body s)) :
    CommandOutcome i s (transform i body s) := by
  by_cases hk : s.keyValid = true
  · rw [transform_with_key hk]
    match hv : validate i with
    | none => rw [validated_of_none hv]; exact work hk hv
    | some r =>
      rw [validated_of_some hv]
      rcases validate_some hv with ⟨p, rfl, _, _⟩ | ⟨_, n, _, _, rfl⟩
      · cases ht
      · exact .error _ rfl (length n hv) (.inr (.inr hv))
  · rw [transform_without_key (by simpa using hk)]
    exact .error _ rfl noKey (.inr (.inl ⟨rfl, ht, by simpa using hk⟩))

/-- The work of a batch transform. -/
theorem commandOutcome_crypt4 {i : Instr} {p : List Byte} {d : Dir} {s : State} (ht : i.isTransform = true)
    (may : ∀ out : List Byte, out.length = 64 → mayAnswer i (.ok out)) (key : s.keyValid = true)
    (passed : validate i = none)
    (batch : i = .enc4 p ∨ i = .dec4 p ∧ s.cfg.hasDec4 = true) : CommandOutcome i s (crypt4 p d s) := by
  have length : p.length = 64 := by
    rcases batch with rfl | ⟨rfl, _⟩
    · exact check_passes passed
    · exact check_passes passed
  rcases crypt4_cases p d s with ⟨answer, lacking, h⟩ | ⟨x, v, h, _⟩
  · rw [h]
    unfold capAnswer at answer
    split at answer
    · next isCached =>
      match hc : s.capCache with
      | none => simp only [hc, Option.getD_none] at answer; exact absurd answer lacking
      | some w =>
        simp only [hc, Option.getD_some] at answer
        exact .stale p batch length key isCached (by rw [hc, answer]; rfl) lacking
    · exact absurd answer lacking
  · rw [h]
    refine .output x v d _ _ key ht (may _ rfl) passed ?_
    unfold capq
    split
    · exact .inr rfl
    · exact .inl rfl

/-- A command has one of these outcomes, in every state. -/
theorem exec_outcome (i : Instr) (s : State) : CommandOutcome i s (exec i s) := by
  cases i with
  | setkey p =>
    show CommandOutcome _ s (execSetkey p s)
    by_cases h : p.length = 16
    · rw [execSetkey_of_length h]
      exact .key p rfl h _
    · have hv : validate (.setkey p) = some (.invalidKeySize 16) := by simp [validate, keyBytes, h]
      rw [execSetkey, validated_of_some hv]
      exact .error _ rfl (.inr rfl) (.inr (.inr hv))
  | enc p =>
    refine commandOutcome_transform rfl (.inr (.inr rfl)) (fun n h => .inr (.inl (check_raises h).2.symm)) fun key passed => ?_
    rw [crypt1_eq]
    exact .output _ s.v .enc _ s.capCache key rfl (.inl ⟨_, rfl, rfl⟩) passed (.inl rfl)
  | dec p =>
    refine commandOutcome_transform rfl (.inr (.inr rfl)) (fun n h => .inr (.inl (check_raises h).2.symm)) fun key passed => ?_
    rw [crypt1_eq]
    exact .output _ s.v .dec _ s.capCache key rfl (.inl ⟨_, rfl, rfl⟩) passed (.inl rfl)
  | enc4 p =>
    exact commandOutcome_transform rfl (.inr (.inr rfl)) (fun n h => .inr (.inl (check_raises h).2.symm)) fun key passed =>
      commandOutcome_crypt4 rfl (fun out h => .inl ⟨out, h, rfl⟩) key passed (.inl rfl)
  | dec4 p =>
    show CommandOutcome _ s (execDec4 p s)
    by_cases h : s.cfg.hasDec4 = true
    · rw [execDec4, if_pos h]
      exact commandOutcome_transform rfl (.inr (.inr (.inl rfl))) (fun n h => .inr (.inl (check_raises h).2.symm))
        fun key passed => commandOutcome_crypt4 rfl (fun out h => .inl ⟨out, h, rfl⟩) key passed (.inr ⟨rfl, h⟩)
    · rw [execDec4, if_neg h]
      exact .error .illegalCommand rfl (.inr (.inr (.inr rfl))) (.inl ⟨rfl, ⟨p, rfl⟩, by simpa using h⟩)

end Sys2Proof.Machine
end

