-- ==== Sys2Proof/Laws/Decode.lean ====
section
/-! SUPPORT. The laws of framing. -/

namespace Sys2Proof

/-- A frame whose LEN is its payload's length is split there, whatever follows. -/
theorem splitFrame_of_length (op : Byte) (payload rest : List Byte) (h : payload.length ≤ 255) :
    splitFrame (op :: BitVec.ofNat 8 payload.length :: (payload ++ rest)) = some (op, payload, rest) := by
  have hlen : (BitVec.ofNat 8 payload.length).toNat = payload.length := by
    rw [BitVec.toNat_ofNat]
    omega
  simp only [splitFrame, hlen, List.length_append, Nat.le_add_right, if_true, List.take_left', List.drop_left']

/-- Whatever splits into a frame is that frame's bytes. -/
theorem splitFrame_some {bytes payload rest : List Byte} {op : Byte} (h : splitFrame bytes = some (op, payload, rest)) :
    bytes = op :: BitVec.ofNat 8 payload.length :: (payload ++ rest) ∧ payload.length ≤ 255 := by
  match bytes with
  | [] => cases h
  | [_] => cases h
  | a :: len :: more =>
    simp only [splitFrame] at h
    split at h
    · next hle =>
      cases h
      have hp : (more.take len.toNat).length = len.toNat := List.length_take_of_le hle
      exact ⟨by rw [hp, List.take_append_drop, BitVec.ofNat_toNat, BitVec.setWidth_eq], by rw [hp]; omega⟩
    · cases h

/-- OP and payload give back the command they are taken from. -/
theorem selectOp_opcode (i : Instr) : selectOp i.opcode i.payload = some i := by
  cases i <;> rfl

/-- The command OP selects carries that OP and the payload. -/
theorem selectOp_some {op : Byte} {payload : List Byte} {i : Instr} (h : selectOp op payload = some i) :
    i.opcode = op ∧ i.payload = payload := by
  unfold selectOp at h
  split at h <;> cases h <;> refine ⟨BitVec.eq_of_toNat_eq ?_, rfl⟩ <;> simp_all [Instr.opcode]

end Sys2Proof
end

