-- ==== Sys2Proof/Laws/PerInstr.lean ====
section
/-! SUPPORT. What holds of each command as syntax: its bytes are its header and its payload, and they frame themselves
(30_encoding.md R82, R90). -/

namespace Sys2Proof.Laws.Framing

/-- A presentable command is `2 + LEN` bytes, and its frame is split off as its OP and its payload whatever follows. -/
def Statement (i : Instr) : Prop :=
  WellFormed i → (encode i).length = 2 + i.payload.length ∧
    ∀ rest : List Byte, splitFrame (encode i ++ rest) = some (i.opcode, i.payload, rest)

theorem of_instr (i : Instr) : Statement i := fun h =>
  ⟨by simp only [encode, List.length_cons]; omega, fun rest => splitFrame_of_length i.opcode i.payload rest h⟩

theorem setkey (payload : List Byte) : Statement (.setkey payload) := of_instr _

theorem enc (payload : List Byte) : Statement (.enc payload) := of_instr _

theorem dec (payload : List Byte) : Statement (.dec payload) := of_instr _

theorem enc4 (payload : List Byte) : Statement (.enc4 payload) := of_instr _

theorem dec4 (payload : List Byte) : Statement (.dec4 payload) := of_instr _

end Sys2Proof.Laws.Framing
end

