-- ==== Sys2Proof/Tests/Slice0.lean ====
section
/-! SUPPORT. Tests of the model against values written out from the spec (95_test_vectors.md and the rules named), and a
named witness for the hypotheses of each statement. -/

namespace Sys2Proof.Tests

open Sys2Proof.Machine Sys2Proof.Safety

/-! ### Helpers -/

/-- The `n` bytes of a number, most significant first: a hexadecimal string in buffer order (R12). -/
def bytesOf (n w : Nat) : List Byte := (List.range n).map fun i => BitVec.ofNat 8 (w / 256 ^ (n - 1 - i))

/-- `n` zero bytes. -/
def zeros (n : Nat) : List Byte := List.replicate n 0

/-- The key and block of V1. -/
def keyV1 : List Byte := bytesOf 16 0x0123456789abcdeffedcba9876543210

/-- The round keys of V2. -/
def rkV2 : Vector Word 32 :=
  #v[0xf12186f9, 0x41662b61, 0x5a6ab19a, 0x7ba92077, 0x367360f4, 0x776a0c61, 0xb6bb89b3, 0x24763151,
     0xa520307c, 0xb7584dbd, 0xc30753ed, 0x7ee55b57, 0x6988608c, 0x30d895b7, 0x44ba14af, 0x104495a1,
     0xd120b428, 0x73b55fa3, 0xcc874966, 0x92244439, 0xe89e641f, 0x98ca015a, 0xc7159060, 0x99e1fd2e,
     0xb79bd80c, 0x1d2115b0, 0x0e228aeb, 0xf1780c81, 0x428d3654, 0x62293496, 0x01cf72e5, 0x9124a012]

/-- The batch of V12 and what SM4.ENC4 answers to it. -/
def batchV12 : List Byte :=
  keyV1 ++ zeros 16 ++ List.replicate 16 0xff ++ bytesOf 16 0x000102030405060708090a0b0c0d0e0f

def cipherV12 : List Byte :=
  bytesOf 16 0x681edf34d206965e86b3e94f536e4246 ++ bytesOf 16 0x2677f46b09c122cc975533105bd4a22a ++
    bytesOf 16 0x6811af7e097364e786fb45ce5d9a60f0 ++ bytesOf 16 0x06989c613da668ad2a8df782e1a8f96a

/-- The core with the key of V1 set, on a platform of the capabilities given. -/
def keyed (cap : CapSet) : State :=
  { State.reset with keyValid := true, rk := rkV2, cfg := { cap := cap, hasDec4 := true, capCached := true } }

/-- The core without SM4.DEC4. -/
def withoutDec4 : State := { State.reset with cfg := { cap := allCaps, hasDec4 := false, capCached := false } }

/-- The core with the key of V1 and a cached answer that `CAP` does not bear out (U6). -/
def stale : State := { keyed 0b0111 with capCache := some 0b1111 }

/-- A state whose host has one move to make. -/
def facing (m : HostMove) (s : State) : State := { s with host := [m] }

/-- The next state of an outcome that has one. -/
def nextOf : Result → Option State
  | .next s => some s
  | .fault _ => none
  | .refused _ => none

/-- The responses after an outcome. -/
def answers (r : Result) : Option (List Response) := (nextOf r).map State.responses

theorem next_of_answers {r : Result} {l : List Response} (h : answers r = some l) :
    ∃ t, r = .next t ∧ t.responses = l := by
  match r with
  | .next t => exact ⟨t, rfl, Option.some.inj h⟩
  | .fault _ => cases h
  | .refused _ => cases h

/-! ### What the well-formedness check refuses (R81) -/

theorem test_wellformed_refuses_256_bytes : ¬ WellFormed (.setkey (zeros 256)) := by decide +kernel

theorem test_wellformed_admits_0_and_255_bytes : WellFormed (.enc []) ∧ WellFormed (.dec4 (zeros 255)) := by
  decide +kernel

/-! ### Decoding: the words of R82 and R84, and the programs P1 to P3, bit by bit -/

theorem test_decode_setkey : decode (0x01 :: 0x10 :: keyV1) = .command (.setkey keyV1) [] := by decide

theorem test_decode_enc : decode (0x02 :: 0x0f :: bytesOf 15 0x0123456789abcdeffedcba98765432) =
    .command (.enc (bytesOf 15 0x0123456789abcdeffedcba98765432)) [] := by decide

theorem test_decode_dec : decode (bytesOf 18 0x0310681edf34d206965e86b3e94f536e4246) =
    .command (.dec (bytesOf 16 0x681edf34d206965e86b3e94f536e4246)) [] := by decide

theorem test_decode_enc4 : decode (0x04 :: 0x40 :: batchV12) = .command (.enc4 batchV12) [] := by decide

theorem test_decode_dec4 : decode (0x05 :: 0x40 :: cipherV12) = .command (.dec4 cipherV12) [] := by decide

theorem test_decode_reserved : decode [0x06, 0x00] = .reserved 0x06 [] ∧ decode [0xff, 0x01, 0x07] = .reserved 0xff [] ∧
    decode [0x00, 0x02, 0x01] = .incomplete ∧ decode [0x02] = .incomplete := by decide

/-- The header as one 16-bit number, OP in bits 15 to 8 and LEN in bits 7 to 0 (R82, opcode_table.json). -/
theorem test_table_words : decodeTableWord 16 0b0000000100000010 = some (.setkey [0, 0]) ∧
    decodeTableWord 16 0b0000001000000000 = some (.enc []) ∧ decodeTableWord 16 0b0000001100000001 = some (.dec [0]) ∧
    decodeTableWord 16 0b0000010001000000 = some (.enc4 (zeros 64)) ∧
    decodeTableWord 16 0b0000010111111111 = some (.dec4 (zeros 255)) ∧ decodeTableWord 16 0x0600 = none := by
  decide +kernel

theorem test_encode : encode (.enc keyV1) = bytesOf 18 0x02100123456789abcdeffedcba9876543210 := by decide

/-- R92's example, and the responses as R92 writes them. -/
theorem test_assembler_text :
    disassemble (.enc keyV1) = "SM4.ENC 0123456789abcdeffedcba9876543210".toList ∧
      responseText (.ok (bytesOf 2 0x681e)) = "OK 681e".toList ∧
      responseText (.invalidBlockSize 64) = "InvalidBlockSize(64)".toList := by decide +kernel

/-! ### The datapath, on the spec's values -/

/-- V7, V8, V9: a word not used in the statements. -/
theorem test_transforms : tau 0xdeadbeef = 0xb4535b84 ∧ keyDiffuse 0xdeadbeef = 0x1e9f13e5 ∧
    keyT 0xdeadbeef = 0x1d79e4a3 ∧ diffuse 0xdeadbeef = 0x06812d22 ∧ roundT 0xdeadbeef = 0xc2d6a551 := by decide +kernel

/-- V10: a row of each affine table. -/
theorem test_affine_rows :
    (List.range 16).map (fun c => a1 (BitVec.ofNat 8 (0x70 + c))) = bytesOf 16 0xe3e5909606007573b5b3c6c050562325 ∧
      (List.range 16).map (fun c => a2 (BitVec.ofNat 8 (0xb0 + c))) = bytesOf 16 0xf8c4516d023eab974e72e7dbb4881d21 := by
  decide +kernel

/-- V12, V14: the steps of vector round 0. -/
theorem test_vector_round :
    let u : Vec := ⟨0xf002c39e, 0xf12186f9, 0x0ede7906, 0xf12084fa⟩
    let s : Vec := ⟨0x18e992b1, 0xf04238ee, 0x2cb4363d, 0xf09c405f⟩
    vaff1 u = ⟨0xf1726f71, 0xf74e85a1, 0xc178b397, 0xf748f6d4⟩ ∧
      visr (vaff1 u) = ⟨0xf148b3a1, 0xf772f697, 0xc14e6fd4, 0xf7788571⟩ ∧
      bcfr (visr (vaff1 u)) zero128 = ⟨0xa140a8a3, 0x682f9732, 0x78bc6d88, 0x68524248⟩ ∧ vsub u = s ∧
      vrotb s 8 = ⟨0xe992b118, 0x4238eef0, 0xb4363d2c, 0x9c405ff0⟩ ∧
      vshr ⟨0x63ca3b40, 0x8a94265c, 0xaebf27a5, 0x2c83ef33⟩ 30 = ⟨1, 2, 2, 0⟩ ∧
      vl s = ⟨0x26d99622, 0x34e2e3a4, 0xab641c9d, 0x1d6360d3⟩ := by decide +kernel

/-- R174's example: the transposed load. -/
theorem test_vload : vload batchV12 =
    ⟨⟨0x01234567, 0x00000000, 0xffffffff, 0x00010203⟩, ⟨0x89abcdef, 0x00000000, 0xffffffff, 0x04050607⟩,
      ⟨0xfedcba98, 0x00000000, 0xffffffff, 0x08090a0b⟩, ⟨0x76543210, 0x00000000, 0xffffffff, 0x0c0d0e0f⟩⟩ := by
  decide +kernel

/-! ### One command -/

/-- V2: all 32 round keys. -/
theorem test_setkey_round_keys : (nextOf (exec (.setkey keyV1) State.reset)).map State.rk = some rkV2 := by decide +kernel

/-- R125: the all-zero key. -/
theorem test_setkey_zero_key :
    (nextOf (exec (.setkey (zeros 16)) State.reset)).map (fun t => (t.rk[0], t.rk[31], t.responses)) =
      some (0x45603b23, 0xa16ca108, [.ok []]) := by decide +kernel

/-- V11: the fifth row. -/
theorem test_enc : answers (exec (.enc (bytesOf 16 0x000102030405060708090a0b0c0d0e0f)) (keyed 0b1111)) =
    some [.ok (bytesOf 16 0x06989c613da668ad2a8df782e1a8f96a)] := by decide +kernel

/-- P3, steps 3 and 6. -/
theorem test_enc_refused : answers (exec (.enc keyV1) State.reset) = some [.noKey] ∧
    answers (exec (.enc (keyV1 ++ [0xaa])) (keyed 0b1111)) = some [.invalidBlockSize 16] := by decide +kernel

/-- V11: the fifth row, decrypted. -/
theorem test_dec : answers (exec (.dec (bytesOf 16 0x000102030405060708090a0b0c0d0e0f)) (keyed 0b1111)) =
    some [.ok (bytesOf 16 0x10c91bf5f2a94d5f6d36b34180e2e6d8)] := by decide +kernel

/-- V12 on the accelerated path. -/
theorem test_enc4_accelerated : answers (exec (.enc4 batchV12) (keyed 0b1111)) = some [.ok cipherV12] := by decide +kernel

/-- V12 on the fallback path, and the answer kept in CAP_CACHE. -/
theorem test_enc4_fallback :
    (nextOf (exec (.enc4 batchV12) (keyed 0b0111))).map (fun t => (t.responses, t.capCache)) =
      some ([.ok cipherV12], some 0b0111) := by decide +kernel

/-- V12: SM4.DEC4 of the batch itself, with each path forced (R185, R258). -/
theorem test_dec4 : ∀ cap ∈ [(0b1111 : CapSet), 0b0111], answers (exec (.dec4 batchV12) (keyed cap)) =
    some [.ok (bytesOf 16 0x9338375e82eec1cbbef65edf8757a631 ++ bytesOf 16 0xf7d6b57ed4ba6ae1a630fac4505c98a0 ++
      bytesOf 16 0x0af265775d5d33680deae5e78c8bf9aa ++ bytesOf 16 0x10c91bf5f2a94d5f6d36b34180e2e6d8)] := by
  decide +kernel

/-- R183: absent, before any other check. -/
theorem test_dec4_absent : answers (exec (.dec4 []) withoutDec4) = some [.illegalCommand] := by decide

/-- P1, step 2: the bytes of the response, from the bytes of the command. -/
theorem test_step_enc :
    (answers (step (facing (.command (0x02 :: 0x10 :: keyV1)) (keyed 0b1111)))).map (·.map encodeResponse) =
      some [bytesOf 18 0x0010681edf34d206965e86b3e94f536e4246] := by decide +kernel

/-! ### Witnesses: the hypotheses of each statement are met -/

theorem witness_RotationMovesEachBit :
    (rotl32 0x00000001 0).getLsbD 0 = true ∧ (rotl32 0x80000000 31).getLsbD ((31 + 31) % 32) = true ∧
      rotl32 0x80000001 1 = 0x80000001#32 <<< 1 ||| 0x80000001#32 >>> 31 := by decide

/-- R52's example. -/
theorem witness_PackAndUnpackAreInverse : keyV1.length = 16 ∧
    words4 keyV1 = ⟨0x01234567, 0x89abcdef, 0xfedcba98, 0x76543210⟩ := by decide

theorem witness_AlgebraicForms : (0x01 : Byte) ≠ 0 ∧ (0xff : Byte) ≠ 0 ∧ gfInv 0x11b 0x01 = 1 := by decide +kernel

theorem witness_RoundTransform : (diffuse (BitVec.twoPow 32 31)).getLsbD ((31 + 2) % 32) = true ∧
    (diffuse (BitVec.twoPow 32 0)).getLsbD 31 = false := by decide

theorem witness_DecodeEncodeRoundTrip : WellFormed (.setkey (zeros 255)) ∧ WellFormed (.enc4 []) := by decide +kernel

theorem witness_EncodeDecodeRoundTrip : decode [0x05, 0x00, 0x01] = .command (.dec4 []) [0x01] := by decide

theorem witness_OpAloneSelects : (zeros 255).length ≤ 255 ∧ 0x01 ≤ (0x01 : Byte).toNat ∧ (0x05 : Byte).toNat ≤ 0x05 ∧
    (0x00 : Byte).toNat = 0x00 ∧ 0x06 ≤ (0x06 : Byte).toNat ∧ 0x06 ≤ (0xff : Byte).toNat := by decide +kernel

theorem witness_ResponseBytes : (zeros 255).length ≤ 255 ∧ WireSized (.ok (zeros 64)) ∧ WireSized (.invalidKeySize 16) ∧
    WireSized (.invalidBlockSize 64) ∧ WireSized .noKey ∧ WireSized .illegalCommand ∧
    encodeResponse (.ok (zeros 0)) = encodeResponse (.ok []) := by
  refine ⟨by decide +kernel, ?_, ?_, ?_, trivial, trivial, rfl⟩ <;> simp [WireSized, zeros, maxPayload]

theorem witness_StepRunsTheCommand : (facing (.command [0x02, 0x00]) State.reset).host = .command [0x02, 0x00] :: [] ∧
    decode [0x02, 0x00] = .command (.enc []) [] := by decide

theorem witness_TableWordRunsNext : decodeTableWord 16 0x0410 = some (.enc4 (zeros 16)) := by decide +kernel

theorem witness_ReservedOpIsAnswered :
    let s (op : Byte) := facing (.command (op :: BitVec.ofNat 8 [(0x07 : Byte)].length :: [0x07])) State.reset
    answers (step (s 0x00)) = some [.illegalCommand] ∧ answers (step (s 0x06)) = some [.illegalCommand] ∧
      answers (step (s 0xff)) = some [.illegalCommand] := by decide

theorem witness_ResetEvent : (facing .reset (keyed 0b1111)).host = .reset :: [] ∧
    (∃ bytes, (facing (.resetDuring [0x02]) (keyed 0b1111)).host = .resetDuring bytes :: []) ∧
    (facing .reset { State.reset with rnd := 7 }).host = (facing .reset State.reset).host ∧
    { State.reset with rnd := 7 }.cfg = State.reset.cfg ∧
    { State.reset with rnd := 7 }.responses = State.reset.responses := ⟨rfl, ⟨_, rfl⟩, rfl, rfl, rfl⟩

theorem witness_IdleAndStuckSteps : State.reset.host = [] ∧ decode [0x02, 0x02, 0xcc] = .incomplete ∧
    decode [0x02, 0x00, 0x02] = .command (.enc []) (0x02 :: []) := by decide

/-- One input for each branch, the first failing check first. -/
theorem witness_ChecksInOrder :
    let answer (s : State) (bytes : List Byte) := answers (step (facing (.command bytes) s))
    answer State.reset [0x00, 0x00] = some [.illegalCommand] ∧ answer withoutDec4 [0x05, 0x00] = some [.illegalCommand] ∧
      answer State.reset (0x02 :: 0x0f :: zeros 15) = some [.noKey] ∧
      answer State.reset (0x01 :: 0x11 :: zeros 17) = some [.invalidKeySize 16] ∧
      answer (keyed 0b1111) (0x03 :: 0x40 :: zeros 64) = some [.invalidBlockSize 16] ∧
      answer (keyed 0b1111) (0x04 :: 0x3f :: zeros 63) = some [.invalidBlockSize 64] ∧
      answer (keyed 0b1111) (0x05 :: 0x41 :: zeros 65) = some [.invalidBlockSize 64] ∧
      answer State.reset (0x01 :: 0x10 :: zeros 16) = some [.ok []] := by decide +kernel

/-- The states of the branches above, and of the batch statements, hold no untrue cached answer. -/
theorem witness_CapabilityQuery : CacheTruthful State.reset ∧ CacheTruthful withoutDec4 ∧
    (∀ cap, CacheTruthful (keyed cap)) ∧ CacheTruthful { keyed 0b0111 with capCache := some 0b0111 } :=
  ⟨.inl rfl, .inl rfl, fun _ => .inl rfl, .inr rfl⟩

theorem witness_KeyScheduleSubStep : State.reset.rnd = BitVec.ofNat 6 (0 : Fin 32).val ∧
    { State.reset with rnd := 31 }.rnd = BitVec.ofNat 6 (31 : Fin 32).val := by decide

theorem witness_SetkeyCompletes : keyV1.length = 16 ∧ (zeros 16).length = 16 := by decide

theorem witness_InvalidKeySizeRule : (zeros 0).length ≠ 16 ∧ (zeros 15).length ≠ 16 ∧ (zeros 17).length ≠ 16 ∧
    answers (exec (.setkey (zeros 15)) (keyed 0b1111)) = some ((keyed 0b1111).responses ++ [.invalidKeySize 16]) := by
  decide +kernel

theorem witness_RekeyReplacesTheInstance :
    (nextOf (exec (.setkey (bytesOf 16 0xfedcba98765432100123456789abcdef)) (keyed 0b1111))).map (·.rk[31]) =
        some 0x711138b7 ∧
      answers (exec (.setkey keyV1) State.reset) = some [.ok []] ∧
      answers (exec (.setkey (zeros 17)) (keyed 0b1111)) = some [.invalidKeySize 16] ∧
      (nextOf (step (facing .reset (keyed 0b1111)))).map (·.keyValid) = some false := by decide +kernel

theorem witness_ScalarRound : (keyed 0b1111).rnd = BitVec.ofNat 6 (0 : Fin 32).val ∧
    { keyed 0b1111 with rnd := 31 }.rnd = BitVec.ofNat 6 (31 : Fin 32).val := by decide

theorem witness_EncCompletes : (keyed 0b1111).keyValid = true ∧ keyV1.length = 16 := by decide

theorem witness_DecCompletes : (keyed 0b0000).keyValid = true ∧ (zeros 16).length = 16 := by decide

theorem witness_CipherRoundTrip : (zeros 16).length = 16 := by decide

theorem witness_CommandRoundTrip : (keyed 0b1111).keyValid = true ∧ keyV1.length = 16 := by decide

theorem witness_InvalidBlockSizeRule :
    (keyed 0b1111).keyValid = true ∧ (keyed 0b1111).cfg.hasDec4 = true ∧ (zeros 15).length ≠ 16 ∧ (zeros 64).length ≠ 16 ∧
      (zeros 63).length ≠ 64 ∧ (zeros 16).length ≠ 64 ∧
      answers (exec (.dec (zeros 17)) (keyed 0b1111)) = some ((keyed 0b1111).responses ++ [.invalidBlockSize 16]) ∧
      answers (exec (.dec4 (zeros 65)) (keyed 0b1111)) = some ((keyed 0b1111).responses ++ [.invalidBlockSize 64]) := by
  decide +kernel

theorem witness_TransformWithoutKey : State.reset.keyValid = false ∧ State.reset.cfg.hasDec4 = true := by decide

theorem witness_RowShiftCancelled : 0 < 16 ∧ 15 < 16 ∧ isr (sr 15) = 15 := by decide

theorem witness_VectorSubstitution : 15 < 16 ∧ vecByte (vsub ⟨0, 0, 0, 0xf0⟩) 15 = 0x18 := by decide +kernel

theorem witness_VectorShufflesAndShifts :
    (vrotb ⟨0x18e992b1, 0, 0, 0⟩ 16).w0 = 0x92b118e9 ∧ (vrotb ⟨0x18e992b1, 0, 0, 0⟩ 24).w0 = 0xb118e992 ∧
      (vrotb ⟨0x18e992b1, 0, 0, 0⟩ 8).w0 = 0xe992b118 := by decide +kernel

theorem witness_BatchLoadAndStore : batchV12.length = 64 ∧ batchV12[16 * 3 + 4 * 3 + 3]? = some 0x0f := by decide +kernel

theorem witness_VectorRound : (keyed 0b1111).rnd = BitVec.ofNat 6 (0 : Fin 32).val ∧
    { keyed 0b1111 with rnd := 31 }.rnd = BitVec.ofNat 6 (31 : Fin 32).val := by decide

theorem witness_BatchPathsAgree : batchV12.length = 64 := by decide

theorem witness_Enc4Completes : CacheTruthful (keyed 0b0111) ∧ CacheTruthful (keyed 0b1111) ∧
    (keyed 0b0111).keyValid = true ∧ (keyed 0b1111).keyValid = true ∧ batchV12.length = 64 :=
  ⟨.inl rfl, .inl rfl, by decide⟩

theorem witness_Dec4Completes : CacheTruthful (keyed 0b0111) ∧ (keyed 0b0111).cfg.hasDec4 = true ∧
    (keyed 0b0111).keyValid = true ∧ cipherV12.length = 64 := ⟨.inl rfl, by decide⟩

theorem witness_Dec4Absent : withoutDec4.cfg.hasDec4 = false := by decide

theorem witness_LanesAreIndependent : CacheTruthful (keyed 0b1111) ∧ (keyed 0b1111).keyValid = true ∧
    ∀ l : Fin 4, (bytesOf 16 l.val).length = 16 := ⟨.inl rfl, by decide⟩

theorem witness_BatchRoundTrip : CacheTruthful (keyed 0b1111) ∧ ({ cap := 0b0000, hasDec4 := true, capCached := true } : Config).hasDec4 = true ∧
    (keyed 0b1111).keyValid = true ∧ batchV12.length = 64 := ⟨.inl rfl, by decide⟩

theorem witness_OnlyStaleCapabilityRefused : stale.keyValid = true ∧ (zeros 64).length = 64 ∧
    stale.cfg.capCached = true ∧ stale.capCache = some 0b1111 ∧ stale.cfg.cap ≠ 0b1111 ∧ stale.cfg.hasDec4 = true ∧
    answers (exec (.enc (zeros 16)) State.reset) = some [.noKey] := by decide

theorem witness_inv_reset : Inv State.reset := ⟨.inl rfl, nofun, Nat.zero_le _⟩

theorem witness_inv_keyed : Inv (keyed 0b0111) :=
  ⟨.inl rfl, fun _ => ⟨keyV1, by decide, by decide +kernel⟩, Nat.zero_le _⟩

/-- A state that meets the invariant, with a step. -/
theorem witness_StepKeepsInvariant : Inv (facing (.command [0x02, 0x00]) (keyed 0b0111)) ∧
    ∃ t, step (facing (.command [0x02, 0x00]) (keyed 0b0111)) = .next t :=
  ⟨⟨witness_inv_keyed.1, witness_inv_keyed.2, witness_inv_keyed.3⟩, _, rfl⟩

theorem witness_ParametersAreConstant : ∃ t, step (facing (.command [0x01, 0x00]) (keyed 0b0111)) = .next t := ⟨_, rfl⟩

theorem witness_OnlySetkeyAndResetWriteTheSlot :
    ∃ t, step (facing .reset (keyed 0b1111)) = .next t ∧ t.keyValid ≠ (keyed 0b1111).keyValid := ⟨_, rfl, by decide⟩

theorem witness_FailedCommandChangesNothing : isError .noKey = true ∧
    ∃ t, exec (.enc []) State.reset = .next t ∧ t.responses = State.reset.responses ++ [.noKey] := ⟨rfl, _, rfl, rfl⟩

theorem witness_OneProperResponse : ∃ t, exec (.enc batchV12) (keyed 0b1111) = .next t ∧
    t.responses = [.invalidBlockSize 16] := next_of_answers (by decide +kernel)

theorem witness_FailedPayloadIsIgnored : (zeros 15).length = (bytesOf 15 1).length ∧ (zeros 15).length ≠ 16 ∧
    (zeros 63).length = (bytesOf 63 1).length ∧ (zeros 63).length ≠ 64 ∧ State.reset.keyValid = false ∧
    withoutDec4.cfg.hasDec4 = false := by decide

/-- Two states that differ in everything the host cannot see, facing the same command. -/
theorem witness_HostSeesOnlyTheSlot :
    let s := facing (.command (0x04 :: 0x40 :: batchV12)) (keyed 0b1111)
    let t := { facing (.command (0x04 :: 0x40 :: batchV12)) (keyed 0b0111) with rnd := 5, capCache := some 0b0111 }
    Indistinguishable s t :=
  ⟨⟨rfl, fun _ => rfl, rfl, rfl, rfl⟩, .inl rfl, .inr rfl⟩

/-- Without an instance the round keys may differ too. -/
theorem witness_HostSeesOnlyTheSlot_without_instance :
    let t := { State.reset with rk := rkV2, k := ⟨1, 2, 3, 4⟩ }
    Indistinguishable State.reset t :=
  ⟨⟨rfl, nofun, rfl, rfl, rfl⟩, .inl rfl, .inl rfl⟩

theorem witness_TransformsCommute : (Instr.enc keyV1).isTransform = true ∧ (Instr.dec4 batchV12).isTransform = true ∧
    CacheTruthful (keyed 0b1111) := ⟨rfl, rfl, .inl rfl⟩

end Sys2Proof.Tests
end

section
/-! Rotation bit by bit (00_scope.md R11). -/

namespace Sys2Proof

theorem getLsbD_rotl32_add (w : Word) {n i : Nat} (hn : n < 32) (hi : i < 32) :
    (rotl32 w n).getLsbD ((i + n) % 32) = w.getLsbD i := by
  have hmod : (i + n) % 32 < 32 := Nat.mod_lt _ (by decide)
  rw [BitVec.getLsbD_eq_getElem hmod, BitVec.getLsbD_eq_getElem hi, getElem_rotl32 w hn hmod]
  split
  · next wraps => congr 1; omega
  · next stays => congr 1; omega

@[simp] theorem rotl32_zero (w : Word) : rotl32 w 0 = w := by
  ext i hi
  simp [getElem_rotl32 w (n := 0) (by decide) hi]

/-- Settles O1: the bit law is the model's `getElem_rotl32` read at the bit's new place, which has wrapped round or not. -/
theorem rotationMovesEachBit : Obligations.RotationMovesEachBit :=
  ⟨fun w _ _ hn hi => getLsbD_rotl32_add w hn hi, fun _ _ _ _ => rfl, rotl32_zero⟩

end Sys2Proof
end

section
/-! Packing and unpacking of words and of 16-byte strings (00_scope.md R13, 20_memory.md R51, R52). -/

namespace Sys2Proof

/-- Packing is joining the four bytes, the first one highest. -/
theorem be32_eq_append (b0 b1 b2 b3 : Byte) : be32 b0 b1 b2 b3 = b0 ++ b1 ++ b2 ++ b3 := by
  ext i hi
  have second : i - 8 < 8 ↔ i < 16 := by omega
  have third : i - (8 + 8) < 8 ↔ i < 24 := by omega
  simp only [getElem_be32 _ _ _ _ hi, BitVec.getElem_append (n := 24), BitVec.getElem_append (n := 16),
    BitVec.getElem_append (n := 8), Nat.sub_sub, second, third]

theorem toNat_be32 (b0 b1 b2 b3 : Byte) :
    (be32 b0 b1 b2 b3).toNat = b0.toNat * 2 ^ 24 + b1.toNat * 2 ^ 16 + b2.toNat * 2 ^ 8 + b3.toNat := by
  have join (a : Nat) (b : Byte) : a <<< 8 ||| b.toNat = a * 2 ^ 8 + b.toNat := by
    rw [← Nat.shiftLeft_add_eq_or_of_lt b.isLt, Nat.shiftLeft_eq]
  simp only [be32_eq_append, BitVec.toNat_append, join]
  omega

theorem wordByte_eq_extractLsb' (w : Word) (m : Nat) : wordByte w m = w.extractLsb' (24 - 8 * m) 8 := by
  ext i hi
  simp [wordByte]

theorem unbe32_eq_fields (w : Word) : unbe32 w =
    [w.extractLsb' 24 8, w.extractLsb' 16 8, w.extractLsb' 8 8, w.extractLsb' 0 8] := by
  simp only [unbe32, wordByte_eq_extractLsb']

theorem be32_fields (w : Word) :
    be32 (w.extractLsb' 24 8) (w.extractLsb' 16 8) (w.extractLsb' 8 8) (w.extractLsb' 0 8) = w := by
  simpa only [wordByte_eq_extractLsb'] using be32_bytes w

@[simp] theorem unbe32_be32 (b0 b1 b2 b3 : Byte) : unbe32 (be32 b0 b1 b2 b3) = [b0, b1, b2, b3] := by
  obtain ⟨h0, h1, h2, h3⟩ := wordByte_be32 b0 b1 b2 b3
  rw [unbe32, h0, h1, h2, h3]

/-- Word `j` of a string that reaches that far unpacks to the string's bytes `4j` to `4j + 3`. -/
theorem unbe32_wordAt {p : List Byte} {j : Nat} (h : 4 * j + 4 ≤ p.length) :
    unbe32 (wordAt p j) = (p.drop (4 * j)).take 4 := by
  simp (disch := omega) only [wordAt, unbe32_be32, List.getD_eq_getElem]
  rw [List.drop_eq_getElem_cons (by omega), List.drop_eq_getElem_cons (by omega), List.drop_eq_getElem_cons (by omega),
    List.drop_eq_getElem_cons (by omega)]
  rfl

theorem bytes16_words4 {p : List Byte} (h : p.length = 16) :
    bytes16 (words4 p).w0 (words4 p).w1 (words4 p).w2 (words4 p).w3 = p := by
  have join (n : Nat) : p.take n ++ (p.drop n).take 4 = p.take (n + 4) := List.take_add.symm
  calc bytes16 (words4 p).w0 (words4 p).w1 (words4 p).w2 (words4 p).w3
      = p.take 4 ++ (p.drop 4).take 4 ++ (p.drop 8).take 4 ++ (p.drop 12).take 4 := by
        simp only [bytes16, words4, unbe32_wordAt, h, Nat.reduceMul, Nat.reduceAdd, Nat.reduceLeDiff, List.drop_zero]
    _ = p.take 16 := by simp only [join, Nat.reduceAdd]
    _ = p := List.take_of_length_le h.le

theorem get_words4 (p : List Byte) (j : Fin 4) : (words4 p).get j = wordAt p j := by
  match j with
  | 0 => rfl
  | 1 => rfl
  | 2 => rfl
  | 3 => rfl

theorem words4_bytes16 (w0 w1 w2 w3 : Word) : words4 (bytes16 w0 w1 w2 w3) = ⟨w0, w1, w2, w3⟩ := by
  simp [words4, wordAt, bytes16, unbe32, be32_bytes]

/-- Settles O2: packing is joining bytes and unpacking is cutting fields, and a 16-byte string is its four cuts of four
bytes joined. -/
theorem packAndUnpackAreInverse : Obligations.PackAndUnpackAreInverse :=
  ⟨fun b0 b1 b2 b3 => ⟨toNat_be32 b0 b1 b2 b3, unbe32_be32 b0 b1 b2 b3⟩,
    fun w => ⟨unbe32_eq_fields w, be32_fields w⟩,
    fun p h => ⟨bytes16_words4 h, get_words4 p⟩,
    fun w0 w1 w2 w3 => ⟨words4_bytes16 w0 w1 w2 w3, rfl⟩⟩

end Sys2Proof
end

section
/-! A step on a presented command (00_scope.md R6, 20_memory.md R62). -/

namespace Sys2Proof.Machine

theorem accept_of_command {s : State} {bytes : List Byte} {rest : List HostMove}
    (h : s.host = .command bytes :: rest) : accept s = acceptCommand bytes { s with host := rest } := by
  simp only [accept, h]

theorem acceptCommand_of_decode {bytes : List Byte} {i : Instr} (h : decode bytes = .command i []) (s : State) :
    acceptCommand bytes s = .run i s := by
  simp only [acceptCommand, h]

theorem step_of_run {s t : State} {i : Instr} (h : accept s = .run i t) : step s = exec i t := by
  simp only [step, h]

/-- Settles O15: the move is taken, its bytes are the command, and the command is run. -/
theorem stepRunsTheCommand : Obligations.StepRunsTheCommand := by
  intro s bytes rest i hhost hdecode
  exact step_of_run ((accept_of_command hhost).trans (acceptCommand_of_decode hdecode _))

end Sys2Proof.Machine
end

section
/-! What a command and a reset do to the parameters, the slot and the invariant (10_state.md R21 to R34). -/

namespace Sys2Proof.Machine

open Sys2Proof.Safety

theorem exec_keeps_cfg {i : Instr} {s t : State} (h : exec i s = .next t) : t.cfg = s.cfg := by
  have outcome := exec_outcome i s
  rw [h] at outcome
  cases outcome with
  | error => rfl
  | key => rfl
  | output => rfl

/-- A command leaves the slot as it was, unless it is an SM4.SETKEY of the right length (R32). -/
theorem exec_keeps_slot_or_setkey {i : Instr} {s t : State} (h : exec i s = .next t) :
    (t.keyValid = s.keyValid ∧ t.rk = s.rk) ∨ ∃ p, i = .setkey p ∧ p.length = 16 := by
  have outcome := exec_outcome i s
  rw [h] at outcome
  cases outcome with
  | error => exact .inl ⟨rfl, rfl⟩
  | key p isSetkey length => exact .inr ⟨p, isSetkey, length⟩
  | output => exact .inl ⟨rfl, rfl⟩

/-- A cached answer that is the platform's makes the query answer CAP, cached or not (R27, R28). -/
theorem capAnswer_of_cacheTruthful {s : State} (h : CacheTruthful s) : capAnswer s = s.cfg.cap := by
  rcases h with invalid | cached
  · simp [capAnswer, invalid]
  · simp [capAnswer, cached]

theorem inv_resetRegisters (cfg : Config) (host : List HostMove) (responses : List Response) :
    Inv (resetRegisters cfg host responses) where
  cacheTruthful := .inl rfl
  keySound := nofun
  countSound := Nat.zero_le rounds

/-- The invariant says nothing of the host's side of the interface. -/
theorem inv_with_host_responses {s : State} (inv : Inv s) (host : List HostMove) (responses : List Response) :
    Inv { s with host := host, responses := responses } :=
  ⟨inv.cacheTruthful, inv.keySound, inv.countSound⟩

/-- Every command keeps the invariant: an error changes only the responses, SM4.SETKEY leaves its own key's RoundKeySet,
and a transform caches at most the answer it got, which is CAP. -/
theorem exec_keeps_inv {i : Instr} {s t : State} (inv : Inv s) (h : exec i s = .next t) : Inv t := by
  have outcome := exec_outcome i s
  rw [h] at outcome
  cases outcome with
  | error => exact inv_with_host_responses inv _ _
  | key p _ length =>
    exact ⟨inv.cacheTruthful, fun _ => ⟨p, length, rfl⟩, Nat.le_refl rounds⟩
  | output x v d out cache _ _ _ _ cached =>
    refine ⟨?_, inv.keySound, Nat.le_refl rounds⟩
    rcases cached with rfl | rfl
    · exact inv.cacheTruthful
    · exact .inr (congrArg some (capAnswer_of_cacheTruthful inv.cacheTruthful))

/-- Settles O53, by the four things a step can do. -/
theorem stepKeepsInvariant : Obligations.StepKeepsInvariant := by
  intro s t inv h
  rcases step_cases h with ⟨_, rfl⟩ | ⟨_, rest, _, _, _, hexec⟩ | ⟨_, rest, _, _, _, rfl⟩ | ⟨rest, _, rfl⟩
  · exact inv
  · exact exec_keeps_inv (inv_with_host_responses inv rest s.responses) hexec
  · exact inv_with_host_responses inv rest _
  · exact inv_resetRegisters _ _ _

/-- Settles O54, by the four things a step can do. -/
theorem parametersAreConstant : Obligations.ParametersAreConstant := by
  intro s t h
  rcases step_cases h with ⟨_, rfl⟩ | ⟨_, rest, _, _, _, hexec⟩ | ⟨_, rest, _, _, _, rfl⟩ | ⟨rest, _, rfl⟩
  · rfl
  · exact (exec_keeps_cfg hexec :)
  · rfl
  · rfl

/-- Settles O55: of the four things a step can do, idling and answering a reserved OP leave the slot, and so does a command
other than SM4.SETKEY of 16 bytes. -/
theorem onlySetkeyAndResetWriteTheSlot : Obligations.OnlySetkeyAndResetWriteTheSlot := by
  intro s t h changed
  have unchanged : ¬(t.keyValid = s.keyValid ∧ t.rk = s.rk) := fun ⟨hvalid, hrk⟩ =>
    changed.elim (fun hne => hne hvalid) (fun hne => hne hrk)
  rcases step_cases h with ⟨_, rfl⟩ | ⟨bytes, rest, i, hhost, hdecode, hexec⟩ | ⟨_, _, _, _, _, rfl⟩ | ⟨rest, hreset, _⟩
  · exact absurd ⟨rfl, rfl⟩ unchanged
  · rcases exec_keeps_slot_or_setkey hexec with same | ⟨p, rfl, length⟩
    · exact absurd same unchanged
    · exact .inl ⟨bytes, rest, p, hhost, hdecode, length⟩
  · exact absurd ⟨rfl, rfl⟩ unchanged
  · rcases hreset with hreset | ⟨bytes, hduring⟩
    · exact .inr (.inl ⟨rest, hreset⟩)
    · exact .inr (.inr ⟨bytes, rest, hduring⟩)

/-- Settles O19: the values R33 and R9 give stand in the definition of the reset state. -/
theorem resetState : Obligations.ResetState := ⟨rfl, rfl, rfl⟩

/-- Settles O52: the reset registers meet the invariant whatever the platform. -/
theorem invariantAtReset : Obligations.InvariantAtReset := inv_resetRegisters _ _ _

end Sys2Proof.Machine
end

section
/-! Re-keying (10_state.md R34, 41_key_schedule.md R126, 60_exceptions.md R241). -/

namespace Sys2Proof.Machine

open Sys2Proof.Safety

/-- SM4.SETKEY of the right length leaves a slot and working words that are made of the key alone. -/
theorem exec_setkey_slot {p : List Byte} {s t : State} (length : p.length = 16) (h : exec (.setkey p) s = .next t) :
    t.keyValid = true ∧ t.rk = roundKeys p ∧
      t.k = slide keyT (Quad.zipWith (· ^^^ ·) (words4 p) fk) ck.toList := by
  cases (execSetkey_of_length length).symm.trans h
  exact ⟨rfl, rfl, rfl⟩

theorem exec_setkey_of_length_ne {p : List Byte} (length : p.length ≠ 16) (s : State) :
    exec (.setkey p) s = .next (respond (.invalidKeySize 16) s) := by
  have invalid : validate (.setkey p) = some (.invalidKeySize 16) := if_neg length
  show execSetkey p s = _
  rw [execSetkey, validated_of_some invalid]

theorem step_of_reset {s : State} {rest : List HostMove} (h : s.host = .reset :: rest) :
    step s = .next (resetEvent { s with host := rest }) := by
  simp only [step, accept, h]

/-- Settles O25: the slot after a success is a function of the key alone, a failure only answers, and reset clears
KEY_VALID. -/
theorem rekeyReplacesTheInstance : Obligations.RekeyReplacesTheInstance := by
  refine ⟨fun p s s' t t' length h h' => ?_, fun p s t length h => ?_, fun s t rest hhost h => ?_⟩
  · obtain ⟨hvalid, hrk, hk⟩ := exec_setkey_slot length h
    obtain ⟨hvalid', hrk', hk'⟩ := exec_setkey_slot length h'
    exact ⟨hvalid, hrk, hvalid'.trans hvalid.symm, hrk'.trans hrk.symm, hk'.trans hk.symm⟩
  · cases (exec_setkey_of_length_ne length s).symm.trans h
    exact ⟨rfl, rfl, rfl⟩
  · cases (step_of_reset hhost).symm.trans h
    rfl

end Sys2Proof.Machine
end

section
/-! What the host sees of a command: one answer, made of the slot and of whether SM4.DEC4 exists (20_memory.md R62,
60_exceptions.md R245, R250, R257). -/

namespace Sys2Proof.Machine

open Sys2Proof.Safety

/-- What the slot gives to a transform: the round keys, while it holds an instance (R22). -/
def slot (s : State) : Option (Vector Word 32) := if s.keyValid then some s.rk else none

theorem slot_eq_iff {s t : State} :
    slot s = slot t ↔ s.keyValid = t.keyValid ∧ (s.keyValid = true → s.rk = t.rk) := by
  cases hs : s.keyValid <;> cases ht : t.keyValid <;> simp [slot, hs, ht]

/-- The answer of a transform that makes `out` of the round keys: the checks of R250 come first. -/
def transformAnswer (i : Instr) (out : Vector Word 32 → List Byte) : Option (Vector Word 32) → Response
  | none => .noKey
  | some rk => (validate i).getD (.ok (out rk))

/-- The answer of a command, from what the slot gives and whether SM4.DEC4 exists. -/
def answer (hasDec4 : Bool) (keys : Option (Vector Word 32)) : Instr → Response
  | .setkey p => (validate (.setkey p)).getD (.ok [])
  | .enc p => transformAnswer (.enc p) (cipher · .enc p) keys
  | .dec p => transformAnswer (.dec p) (cipher · .dec p) keys
  | .enc4 p => transformAnswer (.enc4 p) (cipherBatch · .enc p) keys
  | .dec4 p => if hasDec4 then transformAnswer (.dec4 p) (cipherBatch · .dec p) keys else .illegalCommand

/-- The outcome of a command begun in `s` is a next state, in which `r` is the one new response. -/
def Answers (r : Response) (s : State) (outcome : Result) : Prop :=
  ∃ t, outcome = .next t ∧ t.responses = s.responses ++ [r]

theorem validated_answers {i : Instr} {body : State → Result} {s : State} {out : List Byte}
    (work : validate i = none → Answers (.ok out) s (body s)) :
    Answers ((validate i).getD (.ok out)) s (validated i body s) := by
  match hv : validate i with
  | none => rw [validated_of_none hv]; exact work hv
  | some r => exact ⟨_, validated_of_some hv, rfl⟩

theorem transform_answers {i : Instr} {body : State → Result} {s : State} {out : Vector Word 32 → List Byte}
    (work : Answers (.ok (out s.rk)) s (body s)) :
    Answers (transformAnswer i out (slot s)) s (transform i body s) := by
  cases hk : s.keyValid with
  | false =>
    rw [slot, hk]
    exact ⟨_, transform_without_key hk, rfl⟩
  | true =>
    rw [slot, hk, transform_with_key hk]
    exact validated_answers fun _ => work

/-- With an honest cache no batch is refused: the accelerated path is selected only where it is. -/
theorem crypt4_answers {s : State} (truthful : CacheTruthful s) (p : List Byte) (d : Dir) :
    Answers (.ok (cipherBatch s.rk d p)) s (crypt4 p d s) := by
  rcases crypt4_cases p d s with ⟨selected, lacking, _⟩ | ⟨_, _, completes, _⟩
  · exact absurd ((capAnswer_of_cacheTruthful truthful).symm.trans selected) lacking
  · exact ⟨_, completes, rfl⟩

/-- Every command completes, with the answer that the slot and the existence of SM4.DEC4 determine. -/
theorem exec_answers (i : Instr) {s : State} (truthful : CacheTruthful s) :
    Answers (answer s.cfg.hasDec4 (slot s) i) s (exec i s) := by
  cases i with
  | setkey p =>
    show Answers ((validate (.setkey p)).getD (.ok [])) s (execSetkey p s)
    refine validated_answers fun _ => ⟨_, rfl, ?_⟩
    rw [respond_responses, kexpand_eq]
  | enc p => exact transform_answers ⟨_, crypt1_eq p .enc s, rfl⟩
  | dec p => exact transform_answers ⟨_, crypt1_eq p .dec s, rfl⟩
  | enc4 p => exact transform_answers (crypt4_answers truthful p .enc)
  | dec4 p =>
    show Answers (if s.cfg.hasDec4 then _ else _) s (if s.cfg.hasDec4 then _ else _)
    split
    · exact transform_answers (crypt4_answers truthful p .dec)
    · exact ⟨_, rfl, rfl⟩

theorem exec_keeps_host {i : Instr} {s t : State} (h : exec i s = .next t) : t.host = s.host := by
  have outcome := exec_outcome i s
  rw [h] at outcome
  cases outcome with
  | error => rfl
  | key => rfl
  | output => rfl

/-- A command caches at most the answer of the capability query, which under an honest cache is CAP. -/
theorem exec_keeps_cacheTruthful {i : Instr} {s t : State} (truthful : CacheTruthful s) (h : exec i s = .next t) :
    CacheTruthful t := by
  have outcome := exec_outcome i s
  rw [h] at outcome
  cases outcome with
  | error => exact truthful
  | key => exact truthful
  | output _ _ _ _ _ _ _ _ _ cached =>
    rcases cached with rfl | rfl
    · exact truthful
    · exact .inr (congrArg some (capAnswer_of_cacheTruthful truthful))

/-- A transform leaves the slot as it was. -/
theorem exec_transform_keeps_slot {i : Instr} {s t : State} (transform : i.isTransform = true)
    (h : exec i s = .next t) : t.keyValid = s.keyValid ∧ t.rk = s.rk := by
  rcases exec_keeps_slot_or_setkey h with same | ⟨p, rfl, _⟩
  · exact same
  · cases transform

/-- What the slot gives after a command depends on what it gave before, and not on an RK without an instance. -/
theorem exec_slot_congr {i : Instr} {s s' t t' : State} (same : slot s = slot t) (hs : exec i s = .next s')
    (ht : exec i t = .next t') : slot s' = slot t' := by
  by_cases setkey : ∃ p, i = .setkey p ∧ p.length = 16
  · obtain ⟨p, rfl, length⟩ := setkey
    obtain ⟨validS, rkS, _⟩ := exec_setkey_slot length hs
    obtain ⟨validT, rkT, _⟩ := exec_setkey_slot length ht
    simp only [slot, validS, rkS, validT, rkT]
  · obtain ⟨validS, rkS⟩ := (exec_keeps_slot_or_setkey hs).resolve_right setkey
    obtain ⟨validT, rkT⟩ := (exec_keeps_slot_or_setkey ht).resolve_right setkey
    simpa only [slot, validS, rkS, validT, rkT] using same

end Sys2Proof.Machine
end

section
/-! Two transforms in either order (20_memory.md R62). -/

namespace Sys2Proof.Machine

open Sys2Proof.Safety

/-- Two transforms in one order: both complete, each with its answer in the state before both, and the slot stays. -/
theorem exec_two_transforms {i j : Instr} {s : State} (hi : i.isTransform = true) (hj : j.isTransform = true)
    (truthful : CacheTruthful s) :
    ∃ a t, exec i s = .next a ∧ exec j a = .next t ∧
      t.responses = s.responses ++ [answer s.cfg.hasDec4 (slot s) i, answer s.cfg.hasDec4 (slot s) j] ∧
      t.keyValid = s.keyValid ∧ t.rk = s.rk := by
  obtain ⟨a, hexecI, responsesI⟩ := exec_answers i truthful
  obtain ⟨validI, rkI⟩ := exec_transform_keeps_slot hi hexecI
  obtain ⟨t, hexecJ, responsesJ⟩ := exec_answers j (exec_keeps_cacheTruthful truthful hexecI)
  obtain ⟨validJ, rkJ⟩ := exec_transform_keeps_slot hj hexecJ
  have slotI : slot a = slot s := slot_eq_iff.mpr ⟨validI, fun _ => rkI⟩
  refine ⟨a, t, hexecI, hexecJ, ?_, validJ.trans validI, rkJ.trans rkI⟩
  rw [responsesJ, responsesI, exec_keeps_cfg hexecI, slotI, List.append_assoc]
  rfl

/-- Settles O60: in either order each transform gives its answer in the state before both. -/
theorem transformsCommute : Obligations.TransformsCommute := by
  intro i j s hi hj truthful
  obtain ⟨a, t, hia, hjt, responsesT, validT, rkT⟩ := exec_two_transforms hi hj truthful
  obtain ⟨b, u, hjb, hiu, responsesU, validU, rkU⟩ := exec_two_transforms hj hi truthful
  exact ⟨a, b, t, u, _, _, hia, hjt, hjb, hiu, responsesT, responsesU, validT, validU, rkT, rkU⟩

end Sys2Proof.Machine
end

section
/-! Noninterference: what the host sees of a step (20_memory.md R62, 43_scalar_engine.md R158, 60_exceptions.md R245). -/

namespace Sys2Proof.Machine

open Sys2Proof.Safety

/-- Taking the host's move off both sides. -/
theorem indistinguishable_with_host {s t : State} (h : Indistinguishable s t) (host : List HostMove) :
    Indistinguishable { s with host := host } { t with host := host } :=
  ⟨⟨h.keyValid, h.rk, h.hasDec4, rfl, h.responses⟩, h.left, h.right⟩

theorem indistinguishable_respond {s t : State} (h : Indistinguishable s t) (r : Response) :
    Indistinguishable (respond r s) (respond r t) :=
  ⟨⟨h.keyValid, h.rk, h.hasDec4, h.host, congrArg (· ++ [r]) h.responses⟩, h.left, h.right⟩

theorem indistinguishable_resetEvent {s t : State} (h : Indistinguishable s t) :
    Indistinguishable (resetEvent s) (resetEvent t) :=
  ⟨⟨rfl, nofun, h.hasDec4, h.host, h.responses⟩, .inl rfl, .inl rfl⟩

/-- A command on both sides: the answer is a function of what the two states share, and so is the slot after it. -/
theorem exec_outcomesAlike (i : Instr) {s t : State} (h : Indistinguishable s t) :
    OutcomesAlike (exec i s) (exec i t) := by
  have slots : slot s = slot t := slot_eq_iff.mpr ⟨h.keyValid, h.rk⟩
  obtain ⟨s', execS, responsesS⟩ := exec_answers i h.left
  obtain ⟨t', execT, responsesT⟩ := exec_answers i h.right
  obtain ⟨keyValid, rk⟩ := slot_eq_iff.mp (exec_slot_congr slots execS execT)
  rw [execS, execT]
  refine ⟨⟨keyValid, rk, ?_, ?_, ?_⟩, exec_keeps_cacheTruthful h.left execS, exec_keeps_cacheTruthful h.right execT⟩
  · rw [exec_keeps_cfg execS, exec_keeps_cfg execT, h.hasDec4]
  · rw [exec_keeps_host execS, exec_keeps_host execT, h.host]
  · rw [responsesS, responsesT, h.responses, h.hasDec4, slots]

/-- Settles O59, by the host's move: both states take the same one. -/
theorem hostSeesOnlyTheSlot : Obligations.HostSeesOnlyTheSlot := by
  intro s t h
  have hostT := h.host.symm
  have moveTaken (rest : List HostMove) := indistinguishable_with_host h rest
  unfold step accept
  match hostS : s.host with
  | [] =>
    simp only [hostT, hostS]
    exact h
  | .reset :: rest =>
    simp only [hostT, hostS]
    exact indistinguishable_resetEvent (moveTaken rest)
  | .resetDuring _ :: rest =>
    simp only [hostT, hostS]
    exact indistinguishable_resetEvent (moveTaken rest)
  | .command bytes :: rest =>
    simp only [hostT, hostS, acceptCommand]
    match decode bytes with
    | .command i [] => exact exec_outcomesAlike i (moveTaken rest)
    | .reserved _ [] => exact indistinguishable_respond (moveTaken rest) _
    | .incomplete => rfl
    | .command _ (_ :: _) => rfl
    | .reserved _ (_ :: _) => rfl

end Sys2Proof.Machine
end

section
/-! Reading a command back from its bytes (30_encoding.md R82, R84, R88 to R90). -/

namespace Sys2Proof

/-- A frame whose OP selects a command is that command. -/
theorem decode_of_selectOp_some {bytes payload rest : List Byte} {op : Byte} {i : Instr}
    (frame : splitFrame bytes = some (op, payload, rest)) (selected : selectOp op payload = some i) :
    decode bytes = .command i rest := by
  simp only [decode, frame, selected]

/-- A frame whose OP selects none is reserved (R88). -/
theorem decode_of_selectOp_none {bytes payload rest : List Byte} {op : Byte}
    (frame : splitFrame bytes = some (op, payload, rest)) (reserved : selectOp op payload = none) :
    decode bytes = .reserved op rest := by
  simp only [decode, frame, reserved]

/-- A byte string is a command exactly if its frame is that command's OP and payload. -/
theorem decode_eq_command_iff {bytes rest : List Byte} {i : Instr} :
    decode bytes = .command i rest ↔ splitFrame bytes = some (i.opcode, i.payload, rest) := by
  refine ⟨fun h => ?_, fun frame => decode_of_selectOp_some frame (selectOp_opcode i)⟩
  match frame : splitFrame bytes with
  | none => simp only [decode, frame] at h; cases h
  | some (op, payload, more) =>
    match selected : selectOp op payload with
    | none => cases (decode_of_selectOp_none frame selected).symm.trans h
    | some j =>
      cases (decode_of_selectOp_some frame selected).symm.trans h
      obtain ⟨rfl, rfl⟩ := selectOp_some selected
      rfl

/-- The reserved OPs, whatever the payload (R84). -/
theorem selectOp_eq_none_iff {op : Byte} {payload : List Byte} :
    selectOp op payload = none ↔ op.toNat = 0x00 ∨ 0x06 ≤ op.toNat := by
  unfold selectOp
  split
  case h_6 => simp only [imp_false, true_iff] at *; omega
  all_goals simp only [reduceCtorEq, false_iff]; omega

/-- Settles O10: a command's bytes are framed as its OP and payload, which decide the command. -/
theorem decodeEncodeRoundTrip : Obligations.DecodeEncodeRoundTrip := fun i rest presentable =>
  decode_eq_command_iff.mpr ((Laws.Framing.of_instr i presentable).2 rest)

/-- Settles O11: whatever splits into the command's OP and payload is the command's header and payload. -/
theorem encodeDecodeRoundTrip : Obligations.EncodeDecodeRoundTrip := by
  intro bytes rest i h
  obtain ⟨rfl, presentable⟩ := splitFrame_some (decode_eq_command_iff.mp h)
  exact ⟨rfl, presentable⟩

/-- Settles O12: the frame splits for every OP, and OP selects a command exactly if it is not reserved. -/
theorem opAloneSelects : Obligations.OpAloneSelects := by
  intro op payload rest length
  have frame := splitFrame_of_length op payload rest length
  refine ⟨fun ⟨low, high⟩ => ?_, fun reserved => decode_of_selectOp_none frame (selectOp_eq_none_iff.mpr reserved)⟩
  match selected : selectOp op payload with
  | none => have := selectOp_eq_none_iff.mp selected; omega
  | some i =>
    obtain ⟨hopcode, hpayload⟩ := selectOp_some selected
    exact ⟨i, decode_of_selectOp_some frame selected, hpayload, hopcode⟩

/-- Settles O9, by evaluation; the table word's bytes are 257, which the kernel evaluates. -/
theorem specBytesDecode : Obligations.SpecBytesDecode := by
  refine ⟨rfl, rfl, rfl, rfl, rfl, rfl, rfl, rfl, ?_⟩
  decide +kernel

end Sys2Proof
end

section
/-! The bytes of a response, read back (30_encoding.md R83, R85), and which responses a command gives (R81). -/

namespace Sys2Proof.Machine

open Sys2Proof.Safety

/-- The response that STATUS, RLEN and payload stand for, if they stand for one (R83, R85). -/
def decodeResponse : List Byte → Option Response
  | status :: _ :: payload =>
    match status.toNat, payload with
    | 0x00, out => some (.ok out)
    | 0x01, [expected] => some (.invalidKeySize expected.toNat)
    | 0x02, [expected] => some (.invalidBlockSize expected.toNat)
    | 0x03, [] => some .noKey
    | 0x04, [] => some .illegalCommand
    | _, _ => none
  | _ => none

/-- A response the core can give is read back from its bytes: STATUS tells the kind, and a size fits its one byte. -/
theorem decodeResponse_encodeResponse {r : Response} (sized : WireSized r) :
    decodeResponse (encodeResponse r) = some r := by
  cases r with
  | ok out => rfl
  | invalidKeySize n => exact congrArg (fun m => some (Response.invalidKeySize m)) (Nat.mod_eq_of_lt sized)
  | invalidBlockSize n => exact congrArg (fun m => some (Response.invalidBlockSize m)) (Nat.mod_eq_of_lt sized)
  | noKey => rfl
  | illegalCommand => rfl

/-- Settles O13: the five forms stand in the definition, and a response is read back from its bytes. -/
theorem responseBytes : Obligations.ResponseBytes := by
  refine ⟨fun _ _ => rfl, rfl, rfl, rfl, rfl, rfl, fun r r' sized sized' same => ?_⟩
  apply Option.some.inj
  calc
    some r = decodeResponse (encodeResponse r) := (decodeResponse_encodeResponse sized).symm
    _ = decodeResponse (encodeResponse r') := by rw [same]
    _ = some r' := decodeResponse_encodeResponse sized'

/-- Settles O57, by the outcomes a command can have: each that is a next state carries its one response. -/
theorem oneProperResponse : Obligations.OneProperResponse := by
  intro i s t h
  have outcome := exec_outcome i s
  rw [h] at outcome
  cases outcome with
  | error r _ may => exact ⟨r, rfl, may⟩
  | key p isSetkey => subst isSetkey; exact ⟨.ok [], rfl, .inl rfl⟩
  | output _ _ _ out _ _ _ may => exact ⟨.ok out, rfl, may⟩

end Sys2Proof.Machine
end

section
/-! The algebraic forms of the two S-boxes (40_sbox.md R112, 45_vector_sbox.md R201). Each affine wrapper has an inverse made
of rotations, so a table can be read back as the field inverse inside it: one evaluation over the 256 bytes ties the two
together, and everything else follows from the read-back form or is evaluated on it. -/

namespace Sys2Proof

/-- The inverse of the matrix `A` (R112). -/
def sboxMatrixInverse (v : Byte) : Byte := v ^^^ rotl8 v 2 ^^^ rotl8 v 7

/-- The surrogate's matrix `M` (R201). -/
def aesMatrix (v : Byte) : Byte := v ^^^ rotl8 v 1 ^^^ rotl8 v 2 ^^^ rotl8 v 3 ^^^ rotl8 v 4

/-- The inverse of the surrogate's matrix. -/
def aesMatrixInverse (v : Byte) : Byte := rotl8 v 1 ^^^ rotl8 v 3 ^^^ rotl8 v 6

/-- What the Substitution Table has between its two affine wrappers. -/
def sboxCore (v : Byte) : Byte := sboxMatrixInverse (sbox (sboxMatrixInverse (v ^^^ 0xd3)) ^^^ 0xd3)

/-- What the surrogate's S-box has inside its affine map. -/
def aesCore (v : Byte) : Byte := aesMatrixInverse (aesS v ^^^ 0x63)

theorem sboxMatrixInverse_sboxMatrix : Function.LeftInverse sboxMatrixInverse sboxMatrix := by
  unfold Function.LeftInverse
  decide +kernel

theorem sboxMatrix_sboxMatrixInverse : Function.LeftInverse sboxMatrix sboxMatrixInverse :=
  sboxMatrixInverse_sboxMatrix.rightInverse_of_surjective
    (Finite.surjective_of_injective sboxMatrixInverse_sboxMatrix.injective)

theorem aesMatrix_aesMatrixInverse : Function.LeftInverse aesMatrix aesMatrixInverse := by
  unfold Function.LeftInverse
  decide +kernel

theorem aesAlgebraic_eq (b : Byte) : aesAlgebraic b = aesMatrix (gfInv 0x11b b) ^^^ 0x63 := rfl

theorem gfInv_eq_sboxCore : ∀ v : Byte, gfInv 0x1f5 v = sboxCore v := by decide +kernel

theorem gfInv_eq_aesCore : ∀ v : Byte, gfInv 0x11b v = aesCore v := by decide +kernel

theorem gfMul_sboxCore : ∀ v : Byte, v ≠ 0 → gfMul 0x1f5 v (sboxCore v) = 1 := by decide +kernel

theorem gfMul_aesCore : ∀ v : Byte, v ≠ 0 → gfMul 0x11b v (aesCore v) = 1 := by decide +kernel

theorem sbox_eq_sboxAlgebraic (b : Byte) : sbox b = sboxAlgebraic b := by
  simp only [sboxAlgebraic, gfInv_eq_sboxCore, sboxCore, xor_cancel_right, sboxMatrixInverse_sboxMatrix b,
    sboxMatrix_sboxMatrixInverse (sbox b ^^^ 0xd3)]

theorem aesS_eq_aesAlgebraic (b : Byte) : aesS b = aesAlgebraic b := by
  simp only [aesAlgebraic_eq, gfInv_eq_aesCore, aesCore, aesMatrix_aesMatrixInverse (aesS b ^^^ 0x63), xor_cancel_right]

/-- Settles O4: each table is its form because its core is the field inverse, and the core is checked to be an inverse. -/
theorem algebraicForms : Obligations.AlgebraicForms := by
  refine ⟨sbox_eq_sboxAlgebraic, aesS_eq_aesAlgebraic, ?_⟩
  simp only [gfInv_eq_sboxCore, gfInv_eq_aesCore]
  exact ⟨rfl, rfl, fun v nonzero => ⟨gfMul_sboxCore v nonzero, gfMul_aesCore v nonzero⟩⟩

end Sys2Proof
end

section
/-! The Substitution Table is a permutation of the bytes (40_sbox.md R110, R111), by its algebraic form. -/

namespace Sys2Proof

theorem sboxCore_involutive : Function.Involutive sboxCore := by
  unfold Function.Involutive
  decide +kernel

/-- The table is affine, field inverse, affine, and each of the three is injective. -/
theorem sbox_injective : Function.Injective sbox := by
  intro b b' h
  simpa only [sbox_eq_sboxAlgebraic, sboxAlgebraic, gfInv_eq_sboxCore, BitVec.xor_left_inj,
    sboxMatrixInverse_sboxMatrix.injective.eq_iff, sboxCore_involutive.injective.eq_iff] using h

theorem sbox_bijective : Function.Bijective sbox :=
  ⟨sbox_injective, Finite.surjective_of_injective sbox_injective⟩

theorem sbox_eq_self_iff : ∀ b : Byte, sbox b = b ↔ b = 0xab := by decide +kernel

/-- Settles O3: that the table is injective makes it a permutation, and its one zero the only one. -/
theorem sboxPermutationAndCorners : Obligations.SboxPermutationAndCorners :=
  ⟨sbox_bijective.existsUnique, rfl, rfl, rfl, fun b => ⟨sbox_injective.eq_iff' rfl, sbox_eq_self_iff b⟩⟩

end Sys2Proof
end

section
/-! The Substitution Table on each byte of a word (40_sbox.md R113). -/

namespace Sys2Proof

theorem unbe32_injective : Function.Injective unbe32 := by
  intro w w' h
  simp only [unbe32, List.cons.injEq, and_true] at h
  obtain ⟨h0, h1, h2, h3⟩ := h
  rw [← be32_bytes w, h0, h1, h2, h3, be32_bytes]

theorem unbe32_tau (w : Word) : unbe32 (tau w) = (unbe32 w).map sbox := unbe32_be32 _ _ _ _

theorem tau_injective : Function.Injective tau := by
  intro w w' h
  have bytes : (unbe32 w).map sbox = (unbe32 w').map sbox := by rw [← unbe32_tau, ← unbe32_tau, h]
  exact unbe32_injective (sbox_injective.list_map bytes)

theorem tau_bijective : Function.Bijective tau := ⟨tau_injective, Finite.surjective_of_injective tau_injective⟩

theorem tau_eq_fields (w : Word) : tau w =
    be32 (sbox (w.extractLsb' 24 8)) (sbox (w.extractLsb' 16 8)) (sbox (w.extractLsb' 8 8))
      (sbox (w.extractLsb' 0 8)) := by
  simp only [tau, wordByte_eq_extractLsb']

/-- Settles O5: the bytes of TAU's word are the table's values on the word's bytes, so TAU is injective as the table is. -/
theorem tauReplacesEachByte : Obligations.TauReplacesEachByte :=
  ⟨tau_eq_fields, tau_bijective.existsUnique, rfl, rfl, rfl⟩

end Sys2Proof
end

section
/-! Key-schedule diffusion, the key-schedule transform and the round constants (41_key_schedule.md R120, R121, R123). -/

namespace Sys2Proof

/-- LK is linear over XOR, because rotations are. -/
theorem keyDiffuse_xor (a b : Word) : keyDiffuse (a ^^^ b) = keyDiffuse a ^^^ keyDiffuse b := by
  simp only [keyDiffuse, rotl32_xor a b (show 13 < 32 by decide), rotl32_xor a b (show 23 < 32 by decide)]
  ac_rfl

/-- Settles O6: LK's linearity is that of the rotations, the values are evaluated, and TK and T differ at zero. -/
theorem keyScheduleTransform : Obligations.KeyScheduleTransform :=
  ⟨fun _ => rfl, keyDiffuse_xor, rfl, rfl, rfl, rfl, fun _ => rfl, rfl, rfl, rfl, 0x00000000, by decide⟩

/-- Settles O8, by evaluation of the 32 listed constants. -/
theorem roundConstantsFormula : Obligations.RoundConstantsFormula := by
  unfold Obligations.RoundConstantsFormula
  decide

end Sys2Proof
end

section
/-! The key schedule's sub-step and SM4.SETKEY (41_key_schedule.md R124 to R126). -/

namespace Sys2Proof.Machine

open Sys2Proof.Safety

/-- The rolling words after a sub-step: the target takes the word that `kstep_rk_eq` says RK takes. -/
theorem kstep_k_eq (s : State) (n : Nat) (h : n < 32) (hn : roundIndex s.rnd = ⟨n, h⟩) :
    (kstep s).k = s.k.set (Fin.ofNat 4 n) (slideStep keyT (s.k.from (Fin.ofNat 4 n)) ck[n]).w3 := by
  simp only [kstep, hn]
  rfl

/-- Settles O22: K and RK take the same new word at one place each, RND counts, and a sub-step's other fields stay. -/
theorem keyScheduleSubStep : Obligations.KeyScheduleSubStep := by
  intro s n hrnd j new
  have hn : roundIndex s.rnd = ⟨n.val, n.isLt⟩ := by rw [hrnd, roundIndex_ofNat]
  have hk : (kstep s).k = s.k.set j new := kstep_k_eq s n n.isLt hn
  have hrk : (kstep s).rk = s.rk.set n new := kstep_rk_eq s n n.isLt hn
  refine ⟨?_, fun m hm => ?_, ?_, fun m hm => ?_, ?_, kstep_keyValid s, kstep_x s, kstep_v s, kstep_dir s, kstep_cfg s,
    kstep_capCache s, kstep_host s, kstep_responses s⟩
  · rw [hk, Quad.get_set_same]
  · rw [hk, Quad.get_set_other _ _ hm]
  · simp only [hrk, Fin.getElem_fin, Vector.getElem_set_self]
  · simp only [hrk, Fin.getElem_fin, Vector.getElem_set_ne _ _ (Fin.val_ne_of_ne hm.symm)]
  · rw [kstep_rnd, hrnd, BitVec.ofNat_add]
    rfl

/-- Settles O23: the state `execSetkey_of_length` gives, whose round keys are the sliding form's by `kexpand_eq`, differs
from the one before only in the slot, K, RND and the responses. -/
theorem setkeyCompletes : Obligations.SetkeyCompletes := fun _ _ length =>
  ⟨_, execSetkey_of_length length, rfl, rfl, rfl, rfl, rfl, rfl, rfl, rfl, rfl⟩

end Sys2Proof.Machine
end

section
/-! Round diffusion and the round transform (42_round_transform.md R140 to R142). -/

namespace Sys2Proof

/-- L is linear over XOR, because rotations are. -/
theorem diffuse_xor (a b : Word) : diffuse (a ^^^ b) = diffuse a ^^^ diffuse b := by
  simp only [diffuse, rotl32_xor a b (show 2 < 32 by decide), rotl32_xor a b (show 10 < 32 by decide),
    rotl32_xor a b (show 18 < 32 by decide), rotl32_xor a b (show 24 < 32 by decide)]
  ac_rfl

/-- A word with one set bit has, rotated, that bit at its new place. -/
theorem getLsbD_rotl32_twoPow {i j n : Nat} (hi : i < 32) (hj : j < 32) (hn : n < 32) :
    (rotl32 (BitVec.twoPow 32 i) n).getLsbD j = decide ((i + n) % 32 = j) := by
  rw [BitVec.getLsbD_eq_getElem hj, getElem_rotl32 _ hn hj]
  split <;> rw [BitVec.getElem_twoPow, decide_eq_decide] <;> omega

/-- A place is on a list without repetitions at most once, so the XOR over the list of being there is membership. -/
theorem foldr_xor_decide_eq (j : Nat) {places : List Nat} (distinct : places.Nodup) :
    (places.map (decide <| · = j)).foldr xor false = decide (j ∈ places) := by
  induction places with
  | nil => rfl
  | cons k rest ih =>
    obtain ⟨fresh, distinct⟩ := List.nodup_cons.mp distinct
    rw [List.map_cons, List.foldr_cons, ih distinct]
    by_cases h : k = j
    · subst h; simp [fresh]
    · simp [h, Ne.symm h]

/-- L puts one set bit at five places, which are different, so no two of them cancel. -/
theorem getLsbD_diffuse_twoPow {i j : Nat} (hi : i < 32) (hj : j < 32) :
    (diffuse (BitVec.twoPow 32 i)).getLsbD j =
      decide (j ∈ [i, (i + 2) % 32, (i + 10) % 32, (i + 18) % 32, (i + 24) % 32]) := by
  have moved {n : Nat} (hn : n < 32) := getLsbD_rotl32_twoPow hi hj hn
  have own : (BitVec.twoPow 32 i).getLsbD j = decide (i = j) := by simp [BitVec.getLsbD_twoPow, hi]
  have distinct : [i, (i + 2) % 32, (i + 10) % 32, (i + 18) % 32, (i + 24) % 32].Nodup := by
    simp only [List.nodup_cons, List.mem_cons, List.not_mem_nil, or_false, not_false_eq_true, List.nodup_nil, and_true]
    omega
  rw [← foldr_xor_decide_eq j distinct]
  simp only [diffuse, BitVec.getLsbD_xor, own, moved (show 2 < 32 by decide), moved (show 10 < 32 by decide),
    moved (show 18 < 32 by decide), moved (show 24 < 32 by decide), List.map, List.foldr, Bool.xor_false, Bool.xor_assoc]

/-- Settles O7: L's linearity is that of the rotations and its five bits are the rotated bit's places, the values are
evaluated, and T is not linear because it does not take zero to zero. -/
theorem roundTransform : Obligations.RoundTransform :=
  ⟨fun _ => rfl, diffuse_xor, fun _ _ => getLsbD_diffuse_twoPow, rfl, rfl, rfl, rfl, rfl, fun _ => rfl, rfl, rfl, rfl,
    ⟨0x00000000, 0x00000000, by decide⟩, rfl, rfl⟩

end Sys2Proof
end

section
/-! The round-key index and one scalar round (43_scalar_engine.md R151, R152). -/

namespace Sys2Proof

/-- Four things are told apart by reading them. -/
theorem Quad.ext_get {α : Type} {p q : Quad α} (h : ∀ i, p.get i = q.get i) : p = q :=
  (Quad.mk.injEq ..).mpr ⟨h 0, h 1, h 2, h 3⟩

/-- Settles O26: a round number is at most 31, so the descending index does not wrap round. -/
theorem roundKeyIndex : Obligations.RoundKeyIndex := fun i => ⟨rfl, Fin.sub_val_of_le (Fin.le_last i)⟩

namespace Machine

/-- The word the next scalar round updates. -/
def roundTarget (s : State) : Fin 4 := target (roundIndex s.rnd)

/-- What the next scalar round gives to T: the three other words and the round key. -/
def roundInput (s : State) : Word :=
  s.x.get (roundTarget s + 1) ^^^ s.x.get (roundTarget s + 2) ^^^ s.x.get (roundTarget s + 3) ^^^
    s.rk[kidx (roundIndex s.rnd) s.dir]

theorem rstep_x_eq (s : State) :
    (rstep s).x = s.x.set (roundTarget s) (s.x.get (roundTarget s) ^^^ roundT (roundInput s)) := rfl

theorem rstep_x_get_target (s : State) :
    (rstep s).x.get (roundTarget s) = s.x.get (roundTarget s) ^^^ roundT (roundInput s) := by
  rw [rstep_x_eq, Quad.get_set_same]

theorem rstep_x_get_other {s : State} {m : Fin 4} (h : m ≠ roundTarget s) : (rstep s).x.get m = s.x.get m := by
  rw [rstep_x_eq, Quad.get_set_other _ _ h]

/-- A round does not touch what it gives to T, so the round set back gives T the same. -/
theorem roundInput_rstep_setBack (s : State) : roundInput { rstep s with rnd := s.rnd } = roundInput s := by
  have others : ∀ t : Fin 4, t + 1 ≠ t ∧ t + 2 ≠ t ∧ t + 3 ≠ t := by decide
  obtain ⟨next, afterNext, last⟩ := others (roundTarget s)
  show (rstep s).x.get (roundTarget s + 1) ^^^ (rstep s).x.get (roundTarget s + 2) ^^^
    (rstep s).x.get (roundTarget s + 3) ^^^ s.rk[kidx (roundIndex s.rnd) s.dir] = _
  rw [rstep_x_get_other next, rstep_x_get_other afterNext, rstep_x_get_other last, roundInput]

/-- Settles O27: with RND = `i` the target is `i mod 4` and the key index `i`'s, and a round's other fields stay. -/
theorem scalarRound : Obligations.ScalarRound := by
  intro s i hrnd t
  have hi : roundIndex s.rnd = i := by rw [hrnd, roundIndex_ofNat i.isLt]
  have htarget : roundTarget s = t := congrArg target hi
  have hinput : roundInput s =
      s.x.get (t + 1) ^^^ s.x.get (t + 2) ^^^ s.x.get (t + 3) ^^^ s.rk[kidx i s.dir] := by
    simp only [roundInput, htarget, hi]
  refine ⟨?_, fun m hm => rstep_x_get_other (htarget ▸ hm), ?_, rfl⟩
  · rw [← hinput, ← htarget, rstep_x_get_target]
  · rw [rstep_rnd, hrnd, BitVec.ofNat_add]
    rfl

/-- Settles O28: both rounds XOR the same word of T into the target, which cancels, and neither touches another word. -/
theorem roundIsItsOwnInverse : Obligations.RoundIsItsOwnInverse := by
  intro s
  apply Quad.ext_get
  intro m
  by_cases h : m = roundTarget s
  · subst h
    calc (rstep { rstep s with rnd := s.rnd }).x.get (roundTarget s)
        = (rstep s).x.get (roundTarget s) ^^^ roundT (roundInput { rstep s with rnd := s.rnd }) :=
          rstep_x_get_target { rstep s with rnd := s.rnd }
      _ = s.x.get (roundTarget s) ^^^ roundT (roundInput s) ^^^ roundT (roundInput s) := by
          rw [rstep_x_get_target, roundInput_rstep_setBack]
      _ = s.x.get (roundTarget s) := xor_cancel_right _ _
  · calc (rstep { rstep s with rnd := s.rnd }).x.get m
        = (rstep s).x.get m := rstep_x_get_other (s := { rstep s with rnd := s.rnd }) h
      _ = s.x.get m := rstep_x_get_other h

end Machine

end Sys2Proof
end

section
/-! The sliding recurrence run backwards (43_scalar_engine.md R153, R154, R157): on the reversed words and with the keys
reversed, it comes back to the reversed words it began with. -/

namespace Sys2Proof

/-- The four things in the opposite order. -/
def Quad.reverse {α : Type} (q : Quad α) : Quad α := ⟨q.w3, q.w2, q.w1, q.w0⟩

/-- The direction that undoes a direction. -/
def Dir.opposite : Dir → Dir
  | .enc => .dec
  | .dec => .enc

namespace Safety

theorem slideStep_reverse_slideStep (f : Word → Word) (q : Quad Word) (k : Word) :
    slideStep f (slideStep f q k).reverse k = q.reverse := by
  have sameInput : q.w3 ^^^ q.w2 ^^^ q.w1 ^^^ k = q.w1 ^^^ q.w2 ^^^ q.w3 ^^^ k := by ac_rfl
  simp only [slideStep, Quad.reverse, sameInput, xor_cancel_right]

theorem slide_reverse_slide (f : Word → Word) (q : Quad Word) (ks : List Word) :
    slide f (slide f q ks).reverse ks.reverse = q.reverse := by
  induction ks generalizing q with
  | nil => rfl
  | cons k ks ih =>
    calc slide f (slide f q (k :: ks)).reverse (k :: ks).reverse
        = slideStep f (slide f (slide f (slideStep f q k) ks).reverse ks.reverse) k := by
          simp only [slide, List.foldl_cons, List.reverse_cons, List.foldl_append, List.foldl_nil]
      _ = q.reverse := by rw [ih, slideStep_reverse_slideStep]

theorem keysInOrder_opposite (rk : Vector Word 32) (d : Dir) :
    keysInOrder rk d.opposite = (keysInOrder rk d).reverse := by
  cases d with
  | enc => rfl
  | dec => exact (List.reverse_reverse _).symm

/-- The output block is the final words in reverse order, as the way back needs them. -/
theorem words4_cipher (rk : Vector Word 32) (d : Dir) (b : List Byte) :
    words4 (cipher rk d b) = (slide roundT (words4 b) (keysInOrder rk d)).reverse := words4_bytes16 _ _ _ _

theorem cipher_opposite_cipher (rk : Vector Word 32) (d : Dir) {b : List Byte} (length : b.length = 16) :
    cipher rk d.opposite (cipher rk d b) = b := by
  have back : slide roundT (words4 (cipher rk d b)) (keysInOrder rk d.opposite) = (words4 b).reverse := by
    rw [words4_cipher, keysInOrder_opposite, slide_reverse_slide]
  rw [cipher, back]
  exact bytes16_words4 length

/-- Settles O32: each direction is the other's opposite. -/
theorem cipherRoundTrip : Obligations.CipherRoundTrip := fun rk _ length =>
  ⟨cipher_opposite_cipher rk .enc length, cipher_opposite_cipher rk .dec length⟩

end Safety

end Sys2Proof
end

section
/-! SM4.ENC and SM4.DEC as commands (43_scalar_engine.md R155 to R157). -/

namespace Sys2Proof.Machine

open Sys2Proof.Safety

/-- The scalar transform command of a direction. -/
def blockCommand : Dir → List Byte → Instr
  | .enc => .enc
  | .dec => .dec

theorem exec_blockCommand (d : Dir) (p : List Byte) (s : State) :
    exec (blockCommand d p) s = transform (blockCommand d p) (crypt1 p d) s := by
  cases d with
  | enc => rfl
  | dec => rfl

theorem validate_blockCommand (d : Dir) {p : List Byte} (length : p.length = 16) :
    validate (blockCommand d p) = none := by
  cases d with
  | enc => exact if_pos length
  | dec => exact if_pos length

/-- A scalar transform of a block under an instance: the answer is the cipher's, and only X, RND and DIR change. -/
theorem exec_blockCommand_of_length (d : Dir) {p : List Byte} {s : State} (key : s.keyValid = true)
    (length : p.length = 16) :
    exec (blockCommand d p) s = .next
      { s with
        x := slide roundT (words4 p) (keysInOrder s.rk d)
        rnd := 32
        dir := d
        responses := s.responses ++ [.ok (cipher s.rk d p)] } := by
  rw [exec_blockCommand, transform_with_key key, validated_of_none (validate_blockCommand d length), crypt1_eq]

/-- A block transformed, and its answer transformed in the opposite direction in the state that left, is answered again. -/
theorem exec_blockCommand_roundTrip (d : Dir) {b : List Byte} {s : State} (key : s.keyValid = true)
    (length : b.length = 16) :
    ∃ c t u, exec (blockCommand d b) s = .next t ∧ t.responses = s.responses ++ [.ok c] ∧
      exec (blockCommand d.opposite c) t = .next u ∧ u.responses = t.responses ++ [.ok b] := by
  refine ⟨cipher s.rk d b, _, _, exec_blockCommand_of_length d key length, rfl,
    exec_blockCommand_of_length d.opposite key rfl, ?_⟩
  simp only [cipher_opposite_cipher s.rk d length]

/-- Settles O29: the state `exec_blockCommand_of_length` gives differs from the one before only in X, RND, DIR and the
responses. -/
theorem encCompletes : Obligations.EncCompletes := fun _ _ key length =>
  ⟨_, exec_blockCommand_of_length .enc key length, rfl, key, rfl, rfl, rfl, rfl, rfl, rfl⟩

/-- Settles O30, as `encCompletes` settles O29. -/
theorem decCompletes : Obligations.DecCompletes := fun _ _ key length =>
  ⟨_, exec_blockCommand_of_length .dec key length, rfl, key, rfl, rfl, rfl, rfl, rfl, rfl⟩

/-- Settles O33: the round trip of the commands from either direction. -/
theorem commandRoundTrip : Obligations.CommandRoundTrip := fun _ _ key length =>
  ⟨exec_blockCommand_roundTrip .enc key length, exec_blockCommand_roundTrip .dec key length⟩

end Sys2Proof.Machine
end

section
/-! Four strings of one length joined, as the batch joins its blocks and a block its words (20_memory.md R52, R54). -/

namespace Sys2Proof

/-- Four strings one after the other. -/
def join4 {α : Type} (f : Fin 4 → List α) : List α := f 0 ++ f 1 ++ f 2 ++ f 3

theorem length_join4 {α : Type} {n : Nat} {f : Fin 4 → List α} (length : ∀ l, (f l).length = n) :
    (join4 f).length = 4 * n := by
  simp only [join4, List.length_append, length]
  omega

/-- The `n` things from place `n * l` on are the `l`-th string. -/
theorem take_drop_join4 {α : Type} {n : Nat} {f : Fin 4 → List α} (length : ∀ l, (f l).length = n) (l : Fin 4) :
    ((join4 f).drop (n * l.val)).take n = f l := by
  match l with
  | 0 => simp [join4, length]
  | 1 => simp [join4, length]
  | 2 => simp [join4, length, List.drop_append, List.take_append, Nat.mul_two]
  | 3 =>
    have before : (f 0 ++ f 1 ++ f 2).length = n * 3 := by
      simp only [List.length_append, length]
      omega
    calc ((join4 f).drop (n * 3)).take n
        = (f 3).take n := by rw [join4, List.drop_left' before]
      _ = f 3 := List.take_of_length_le (length 3).le

theorem getElem?_join4 {α : Type} {n k : Nat} {f : Fin 4 → List α} (length : ∀ l, (f l).length = n) (l : Fin 4)
    (hk : k < n) : (join4 f)[n * l.val + k]? = (f l)[k]? := by
  rw [← take_drop_join4 length l, List.getElem?_take_of_lt hk, List.getElem?_drop]

theorem blockAt_join4 {f : Fin 4 → List Byte} (length : ∀ l, (f l).length = 16) (l : Fin 4) :
    blockAt (join4 f) l.val = f l := take_drop_join4 length l

theorem length_blockAt {p : List Byte} (length : p.length = 64) (l : Fin 4) : (blockAt p l.val).length = 16 := by
  simp only [blockAt, blockBytes, List.length_take, List.length_drop, length]
  omega

theorem join4_blockAt {p : List Byte} (length : p.length = 64) : join4 (fun l => blockAt p l.val) = p := by
  have next (n : Nat) : p.take n ++ (p.drop n).take 16 = p.take (n + 16) := List.take_add.symm
  calc join4 (fun l => blockAt p l.val)
      = p.take 16 ++ (p.drop 16).take 16 ++ (p.drop 32).take 16 ++ (p.drop 48).take 16 := rfl
    _ = p.take 64 := by simp only [next, Nat.reduceAdd]
    _ = p := List.take_of_length_le length.le

end Sys2Proof
end

section
/-! The batch transform in the sliding form: four block transforms side by side (44_vector_engine.md R170, R183, R184). -/

namespace Sys2Proof.Safety

theorem cipherBatch_eq_join4 (rk : Vector Word 32) (d : Dir) (p : List Byte) :
    cipherBatch rk d p = join4 fun l => cipher rk d (blockAt p l.val) := rfl

theorem length_cipherBatch (rk : Vector Word 32) (d : Dir) (p : List Byte) : (cipherBatch rk d p).length = 64 := rfl

theorem cipherBatch_join4 (rk : Vector Word 32) (d : Dir) {f : Fin 4 → List Byte} (length : ∀ l, (f l).length = 16) :
    cipherBatch rk d (join4 f) = join4 fun l => cipher rk d (f l) := by
  simp only [cipherBatch_eq_join4, blockAt_join4 length]

/-- Each block comes back by itself. -/
theorem cipherBatch_opposite_cipherBatch (rk : Vector Word 32) (d : Dir) {p : List Byte} (length : p.length = 64) :
    cipherBatch rk d.opposite (cipherBatch rk d p) = p := by
  calc cipherBatch rk d.opposite (cipherBatch rk d p)
      = join4 fun l => cipher rk d.opposite (cipher rk d (blockAt p l.val)) := by
        rw [cipherBatch_eq_join4 rk d p, cipherBatch_join4 rk d.opposite fun _ => rfl]
    _ = join4 fun l => blockAt p l.val := by
        simp only [cipher_opposite_cipher rk d (length_blockAt length _)]
    _ = p := join4_blockAt length

end Sys2Proof.Safety
end

section
/-! The transposed load, the broadcast and the batch store byte by byte (44_vector_engine.md R174, R175, R180). -/

namespace Sys2Proof

theorem getElem?_unbe32 (w : Word) (m : Fin 4) : (unbe32 w)[m.val]? = some (wordByte w m.val) := by
  match m with
  | 0 => rfl
  | 1 => rfl
  | 2 => rfl
  | 3 => rfl

/-- Byte `m` of word `j` of a string that reaches that far is the string's byte `4j + m`. -/
theorem getElem?_eq_wordByte_wordAt {p : List Byte} {j : Nat} (reaches : 4 * j + 4 ≤ p.length) (m : Fin 4) :
    p[4 * j + m.val]? = some (wordByte (wordAt p j) m.val) := by
  rw [← getElem?_unbe32, unbe32_wordAt reaches, List.getElem?_take_of_lt m.isLt, List.getElem?_drop]

/-- Byte `m` of lane `l` stands at place `4l + m` (R56). -/
theorem vecByte_lane (v : Vec) (l m : Fin 4) : vecByte v (4 * l.val + m.val) = wordByte (v.get l) m.val := by
  have lane : (4 * l.val + m.val) / 4 = l.val := by omega
  have byte : (4 * l.val + m.val) % 4 = m.val := by omega
  rw [vecByte, lane, byte, Fin.ofNat_val_eq_self]

namespace Machine

theorem get_get_vload (p : List Byte) (j l : Fin 4) :
    ((vload p).get j).get l = wordAt p (4 * l.val + j.val) := by
  calc ((vload p).get j).get l = (laneWords (vload p) l).get j := (Quad.get_map (·.get l) (vload p) j).symm
    _ = wordAt (blockAt p l.val) j.val := by rw [vload_lane, get_words4]
    _ = wordAt p (4 * l.val + j.val) := wordAt_blockAt p l j j.isLt

/-- The registers leave in the opposite order, each as its four bytes. -/
theorem emitLane_eq_join4 (s : State) (l : Fin 4) :
    emitLane s l = join4 fun j => unbe32 ((s.v.get (3 - j)).get l) := rfl

theorem emitBatch_eq_join4 (s : State) : emitBatch s = join4 (emitLane s) := rfl

theorem getElem?_emitBatch (s : State) (l j m : Fin 4) :
    (emitBatch s)[16 * l.val + 4 * j.val + m.val]? = some (wordByte ((s.v.get (3 - j)).get l) m.val) := by
  have inBlock : 4 * j.val + m.val < 16 := by omega
  rw [Nat.add_assoc, emitBatch_eq_join4, getElem?_join4 (n := 16) (fun _ => rfl) l inBlock, emitLane_eq_join4,
    getElem?_join4 (n := 4) (fun _ => rfl) j m.isLt, getElem?_unbe32]

/-- Settles O42: lane `l` of `V[j]` is the batch's word `4l + j`, whose bytes are the batch's from `4 (4l + j)` on, and a
stored byte is found in its block, there in its word. -/
theorem batchLoadAndStore : Obligations.BatchLoadAndStore := by
  refine ⟨fun p j l length => ?_, vbcast_get, fun s => ⟨rfl, fun l j m => ?_⟩⟩
  · have place : 16 * l.val + 4 * j.val = 4 * (4 * l.val + j.val) := by omega
    have reaches : 4 * (4 * l.val + j.val) + 4 ≤ p.length := by omega
    rw [place]
    refine ⟨get_get_vload p j l, fun m => ?_⟩
    rw [vecByte_lane, get_get_vload]
    exact getElem?_eq_wordByte_wordAt reaches m
  · rw [vecByte_lane, getElem?_emitBatch]

end Machine

end Sys2Proof
end

section
/-! One vector round lane by lane (44_vector_engine.md R176, R177, R179). -/

namespace Sys2Proof.Machine

/-- What the next vector round gives to the round function: the three other registers and the round key in every lane. -/
def vectorRoundInput (s : State) : Vec :=
  vxor (vxor (vxor (s.v.get (roundTarget s + 1)) (s.v.get (roundTarget s + 2))) (s.v.get (roundTarget s + 3)))
    (vbcast s.rk[kidx (roundIndex s.rnd) s.dir])

theorem vrstep_v_eq (s : State) :
    (vrstep s).v = s.v.set (roundTarget s) (vxor (s.v.get (roundTarget s)) (vt (vectorRoundInput s))) := rfl

@[simp] theorem vxor_get (a b : Vec) (l : Fin 4) : (vxor a b).get l = a.get l ^^^ b.get l := Quad.get_zipWith ..

@[simp] theorem vt_get (u : Vec) (l : Fin 4) : (vt u).get l = roundT (u.get l) := by rw [vt_eq, Quad.get_map]

/-- Settles O43: with RND = `i` the target is `i mod 4` and the key index `i`'s, the round's operations work lane by lane,
and its other fields stay. -/
theorem vectorRound : Obligations.VectorRound := by
  intro s i hrnd t
  have hi : roundIndex s.rnd = i := by rw [hrnd, roundIndex_ofNat i.isLt]
  have htarget : roundTarget s = t := congrArg target hi
  have hv := vrstep_v_eq s
  simp only [vectorRoundInput, htarget, hi] at hv
  refine ⟨fun l => ?_, fun m hm => ?_, ?_, rfl⟩
  · simp only [hv, Quad.get_set_same, vxor_get, vt_get, vbcast_get]
  · rw [hv, Quad.get_set_other _ _ hm]
  · rw [vrstep_rnd, hrnd, BitVec.ofNat_add]
    rfl

end Sys2Proof.Machine
end

section
/-! The capability query and the two paths of a batch (44_vector_engine.md R170 to R173, R185). -/

namespace Sys2Proof.Machine

open Sys2Proof.Safety

theorem capq_of_cacheTruthful {s : State} (truthful : CacheTruthful s) :
    capq s = if s.cfg.capCached then { s with capCache := some s.cfg.cap } else s := by
  rw [capq, capAnswer_of_cacheTruthful truthful]

/-- Settles O44: a cached answer is CAP, and CAP is what a cached query keeps. -/
theorem capabilityQuery : Obligations.CapabilityQuery := fun _ truthful =>
  ⟨capAnswer_of_cacheTruthful truthful, capq_of_cacheTruthful truthful⟩

theorem capq_capCache_of_cacheTruthful {s : State} (truthful : CacheTruthful s) :
    (capq s).capCache = if s.cfg.capCached then some s.cfg.cap else s.capCache := by
  rw [capq_of_cacheTruthful truthful]
  split <;> rfl

/-- Settles O45: the scalar transform on each block, each path and the choice between them have the sliding form's
outputs. -/
theorem batchPathsAgree : Obligations.BatchPathsAgree := fun p d s _ =>
  ⟨fun l => cipher s.rk d (blockAt p l.val), fun l => ⟨_, crypt1_eq (blockAt p l.val) d s, rfl⟩,
    ⟨_, crypt4Acc_eq p d s, rfl⟩, ⟨_, crypt4Fallback_eq p d s, rfl⟩, fun truthful => crypt4_answers truthful p d⟩

end Sys2Proof.Machine
end

section
/-! SM4.ENC4 and SM4.DEC4 as commands (44_vector_engine.md R182 to R184). -/

namespace Sys2Proof.Machine

open Sys2Proof.Safety

/-- The batch command of a direction. -/
def batchCommand : Dir → List Byte → Instr
  | .enc => .enc4
  | .dec => .dec4

/-- The core has the batch command of a direction (R183). -/
def HasBatchCommand (s : State) : Dir → Prop
  | .enc => True
  | .dec => s.cfg.hasDec4 = true

theorem exec_batchCommand {d : Dir} {s : State} (present : HasBatchCommand s d) (p : List Byte) :
    exec (batchCommand d p) s = transform (batchCommand d p) (crypt4 p d) s := by
  cases d with
  | enc => rfl
  | dec => exact if_pos present

theorem validate_batchCommand (d : Dir) {p : List Byte} (length : p.length = 64) :
    validate (batchCommand d p) = none := by
  cases d with
  | enc => exact if_pos length
  | dec => exact if_pos length

/-- What a batch command of the right length leaves: its answer, the slot and all but the working registers and the
capability cache, which keeps only CAP. The accelerated path leaves X, the fallback path V. -/
structure BatchCompleted (d : Dir) (p : List Byte) (s t : State) : Prop where
  responses : t.responses = s.responses ++ [.ok (cipherBatch s.rk d p)]
  keyValid : t.keyValid = true
  rk : t.rk = s.rk
  k : t.k = s.k
  cfg : t.cfg = s.cfg
  host : t.host = s.host
  capCache : t.capCache = if s.cfg.capCached then some s.cfg.cap else s.capCache
  working : if s.cfg.cap = allCaps then t.x = s.x else t.v = s.v

theorem exec_batchCommand_completes {d : Dir} {p : List Byte} {s : State} (truthful : CacheTruthful s)
    (present : HasBatchCommand s d) (key : s.keyValid = true) (length : p.length = 64) :
    ∃ t, exec (batchCommand d p) s = .next t ∧ BatchCompleted d p s t := by
  rw [exec_batchCommand present, transform_with_key key, validated_of_none (validate_batchCommand d length)]
  have answer := capAnswer_of_cacheTruthful truthful
  have cache := capq_capCache_of_cacheTruthful truthful
  rcases crypt4_cases p d s with ⟨selected, lacking, _⟩ | ⟨x, v, completes, path⟩
  · exact absurd (answer.symm.trans selected) lacking
  · refine ⟨_, completes, rfl, key, rfl, rfl, rfl, rfl, cache, ?_⟩
    rw [answer] at path
    rcases path with ⟨accelerated, hx⟩ | ⟨fallback, hv⟩
    · rw [if_pos accelerated]; exact hx
    · rw [if_neg fallback]; exact hv

/-- Settles O46: what `BatchCompleted` says of the direction ENC, whose command every core has. -/
theorem enc4Completes : Obligations.Enc4Completes := by
  intro p s truthful key length
  obtain ⟨t, ht, done⟩ := exec_batchCommand_completes (d := .enc) truthful trivial key length
  exact ⟨t, ht, done.responses, done.keyValid, done.rk, done.k, done.cfg, done.host, done.capCache, done.working⟩

/-- Settles O47, as `enc4Completes` settles O46, on a core that has SM4.DEC4. -/
theorem dec4Completes : Obligations.Dec4Completes := by
  intro p s truthful present key length
  obtain ⟨t, ht, done⟩ := exec_batchCommand_completes (d := .dec) truthful present key length
  exact ⟨t, ht, done.responses, done.keyValid, done.rk, done.k, done.cfg, done.host, done.capCache, done.working⟩

/-- Settles O49: the arranged blocks are the blocks of the batch, and the batch command's answer is the cipher's on each. -/
theorem lanesAreIndependent : Obligations.LanesAreIndependent := by
  intro s block truthful key length
  refine ⟨fun l => cipher s.rk .enc (block l),
    fun l => ⟨_, exec_blockCommand_of_length .enc key (length l), rfl⟩, fun σ => ?_⟩
  have arranged (l : Fin 4) : (block (σ l)).length = 16 := length (σ l)
  obtain ⟨t, ht, done⟩ := exec_batchCommand_completes (d := .enc) truthful trivial key (length_join4 arranged)
  refine ⟨t, ht, ?_⟩
  rw [done.responses, cipherBatch_join4 s.rk .enc arranged]
  rfl

/-- Settles O50: the state SM4.ENC4 left has the same RoundKeySet, no answer is cached, and the batch transform in the
opposite direction restores the batch whatever path answers it. -/
theorem batchRoundTrip : Obligations.BatchRoundTrip := by
  intro p s cfg truthful present key length
  obtain ⟨t, ht, done⟩ := exec_batchCommand_completes (d := .enc) truthful trivial key length
  obtain ⟨u, hu, undone⟩ := exec_batchCommand_completes (d := .dec) (s := { t with cfg := cfg, capCache := none })
    (.inl rfl) present done.keyValid (length_cipherBatch s.rk .enc p)
  have restored : cipherBatch t.rk .dec (cipherBatch s.rk .enc p) = p := by
    rw [done.rk]
    exact cipherBatch_opposite_cipherBatch s.rk .enc length
  refine ⟨cipherBatch s.rk .enc p, t, u, ht, done.responses, hu, ?_⟩
  calc u.responses
      = t.responses ++ [.ok (cipherBatch t.rk .dec (cipherBatch s.rk .enc p))] := undone.responses
    _ = t.responses ++ [.ok p] := by rw [restored]

end Sys2Proof.Machine
end

section
/-! The affine maps into the surrogate's representation and back (45_vector_sbox.md R205 to R209). Between the two ciphers'
affine wrappers stand a change of representation that takes one field inverse to the other (R208) and a constant factor of
the surrogate's field, which `A2` takes back (R209). So `A2` after the surrogate's S-box after `A1` is the Substitution
Table, and as that is a bijection both maps are. -/

namespace Sys2Proof

/-- The change of representation of R208, from the Substitution Table's field to the surrogate's: linear, and the images of
the bits are the powers of `0x69`, a root of the Substitution Table's modulus in the surrogate's field. -/
def toSurrogate (v : Byte) : Byte := affine 0 [0x01, 0x69, 0x86, 0x67, 0x8e, 0x02, 0xd2, 0x17] v

/-- `A1` is the Substitution Table's inner affine map, the change of representation, and a factor in the surrogate's
field (R209). -/
theorem a1_eq_scaled_toSurrogate :
    ∀ b : Byte, a1 b = gfMul 0x11b 0xf1 (toSurrogate (sboxMatrix b ^^^ 0xd3)) := by decide +kernel

/-- The inverse of a multiple is the inverse times the inverse of the factor (R209). -/
theorem gfInv_scaled : ∀ v : Byte, gfInv 0x11b (gfMul 0x11b 0xf1 v) = gfMul 0x11b 0x23 (gfInv 0x11b v) := by
  simp only [gfInv_eq_aesCore]
  decide +kernel

/-- The change of representation takes the inverses of one field to those of the other. -/
theorem gfInv_toSurrogate : ∀ v : Byte, gfInv 0x11b (toSurrogate v) = toSurrogate (gfInv 0x1f5 v) := by
  simp only [gfInv_eq_aesCore, gfInv_eq_sboxCore]
  decide +kernel

/-- `A2` undoes the surrogate's affine map, the factor and the change of representation, and applies the Substitution
Table's outer affine map. -/
theorem a2_aesMatrix_scaled_toSurrogate :
    ∀ v : Byte, a2 (aesMatrix (gfMul 0x11b 0x23 (toSurrogate v)) ^^^ 0x63) = sboxMatrix v ^^^ 0xd3 := by
  decide +kernel

/-- Settles O36: both tables are a field inverse in affine wrappers, and the inverses correspond. -/
theorem fieldIsomorphism : Obligations.FieldIsomorphism := by
  intro b
  let v := sboxMatrix b ^^^ 0xd3
  calc a2 (aesS (a1 b))
      = a2 (aesMatrix (gfInv 0x11b (gfMul 0x11b 0xf1 (toSurrogate v))) ^^^ 0x63) := by
        rw [aesS_eq_aesAlgebraic, aesAlgebraic_eq, a1_eq_scaled_toSurrogate]
    _ = a2 (aesMatrix (gfMul 0x11b 0x23 (toSurrogate (gfInv 0x1f5 v))) ^^^ 0x63) := by
        rw [gfInv_scaled, gfInv_toSurrogate]
    _ = sboxAlgebraic b := a2_aesMatrix_scaled_toSurrogate _
    _ = sbox b := (sbox_eq_sboxAlgebraic b).symm

theorem a1_eq_a1Nibbles : ∀ b : Byte, a1 b = a1Nibbles b := by decide +kernel

theorem a2_eq_a2Nibbles : ∀ b : Byte, a2 b = a2Nibbles b := by decide +kernel

/-- `A1` is the first of three maps whose composition is injective. -/
theorem a1_bijective : Function.Bijective a1 := by
  have injective : Function.Injective a1 := fun b b' h =>
    sbox_injective (by rw [← fieldIsomorphism b, ← fieldIsomorphism b', h])
  exact ⟨injective, Finite.surjective_of_injective injective⟩

/-- `A2` is the last of three maps whose composition is surjective. -/
theorem a2_bijective : Function.Bijective a2 := by
  have surjective : Function.Surjective a2 := fun c =>
    let ⟨b, hb⟩ := sbox_bijective.surjective c
    ⟨aesS (a1 b), (fieldIsomorphism b).trans hb⟩
  exact ⟨Finite.injective_iff_surjective.mpr surjective, surjective⟩

/-- Settles O37: the two forms are compared on every byte, and that both maps are bijections follows from O36. -/
theorem affineForms : Obligations.AffineForms :=
  ⟨fun b => ⟨a1_eq_a1Nibbles b, a2_eq_a2Nibbles b⟩,
    fun c => ⟨a1_bijective.existsUnique c, a2_bijective.existsUnique c⟩, rfl, rfl, rfl, rfl⟩

end Sys2Proof
end

section
/-! Substitution through the surrogate's final round, byte by byte and lane by lane (45_vector_sbox.md R200, R202,
R204). -/

namespace Sys2Proof

theorem wordByte_xor (a b : Word) (m : Nat) : wordByte (a ^^^ b) m = wordByte a m ^^^ wordByte b m := by
  rw [wordByte, BitVec.ushiftRight_xor_distrib, BitVec.setWidth_xor, wordByte, wordByte]

theorem vecByte_vxor (a b : Vec) (p : Nat) : vecByte (vxor a b) p = vecByte a p ^^^ vecByte b p := by
  rw [vecByte, Machine.vxor_get, wordByte_xor, vecByte, vecByte]

theorem vecByte_bcfr (v key : Vec) {p : Nat} (h : p < 16) :
    vecByte (bcfr v key) p = aesS (vecByte v (sr p)) ^^^ vecByte key p := by
  rw [bcfr, vecByte_vxor, vecByte_vecMapBytes _ _ h, vecByte_vecShuffle _ _ h]

/-- Settles O38: a byte of the final round comes from where the row shift takes it, the lists are the formulas' values, and
the pre-permutation is the row shift's inverse, so that together they leave every byte in place. -/
theorem rowShiftCancelled : Obligations.RowShiftCancelled := by
  refine ⟨fun v key p => vecByte_bcfr v key, rfl, rfl, fun p => isr_sr, fun v p => vecByte_vecShuffle isr v,
    fun v p hp => ?_⟩
  rw [bcfr_visr, vecByte_vecMapBytes _ _ hp]

/-- TAU on each lane is the Substitution Table on each byte. -/
theorem map_tau_eq_vecMapBytes (v : Vec) : Quad.map tau v = vecMapBytes sbox v := rfl

/-- Settles O39: VSUB is TAU on each lane, which is the Substitution Table on each byte. -/
theorem vectorSubstitution : Obligations.VectorSubstitution := by
  refine fun v => ⟨fun p hp => ?_, fun l => ?_⟩
  · rw [vsub_eq, map_tau_eq_vecMapBytes, vecByte_vecMapBytes _ _ hp]
  · rw [vsub_eq, Quad.get_map]

end Sys2Proof
end

section
/-! Shuffles, shifts and the diffusion made of them, lane by lane (45_vector_sbox.md R210 to R213). -/

namespace Sys2Proof

theorem vrotb_eq (v : Vec) {n : Nat} (h : n = 8 ∨ n = 16 ∨ n = 24) : vrotb v n = Quad.map (rotl32 · n) v := by
  obtain rfl | rfl | rfl := h
  · exact vrotb_8_eq v
  · exact vrotb_16_eq v
  · exact vrotb_24_eq v

theorem vecByte_vrotb (v : Vec) (n : Nat) {l m : Nat} (hl : l < 4) (hm : m < 4) :
    vecByte (vrotb v n) (4 * l + m) = vecByte v (4 * l + (m + n / 8) % 4) := by
  have lane : (4 * l + m) / 4 = l := by omega
  have byte : (4 * l + m) % 4 = m := by omega
  rw [vrotb, vecByte_vecShuffle _ _ (by omega), lane, byte]

@[simp] theorem vor_get (a b : Vec) (l : Fin 4) : (vor a b).get l = a.get l ||| b.get l := Quad.get_zipWith ..

@[simp] theorem vshl_get (v : Vec) (n : Nat) (l : Fin 4) : (vshl v n).get l = v.get l <<< n := Quad.get_map ..

@[simp] theorem vshr_get (v : Vec) (n : Nat) (l : Fin 4) : (vshr v n).get l = v.get l >>> n := Quad.get_map ..

/-- Settles O40: a shuffle moves a byte within its lane and so rotates the lane, and the other operations are those of words
on each lane. -/
theorem vectorShufflesAndShifts : Obligations.VectorShufflesAndShifts := by
  refine ⟨fun v n hn => ⟨fun l => ?_, fun l m => vecByte_vrotb v n⟩,
    fun v w n l => ⟨?_, ?_, vor_get v w l, Machine.vxor_get v w l⟩⟩
  · rw [vrotb_eq v hn, Quad.get_map]
  · rw [vshl_get, BitVec.toNat_shiftLeft, Nat.shiftLeft_eq]
  · rw [vshr_get, BitVec.toNat_ushiftRight, Nat.shiftRight_eq_div_pow]

theorem rotl32_xor_rotl32_8_16 (b : Word) :
    rotl32 (b ^^^ rotl32 b 8 ^^^ rotl32 b 16) 2 = rotl32 b 2 ^^^ rotl32 b 10 ^^^ rotl32 b 18 := by
  have two : 2 < 32 := by decide
  rw [rotl32_xor _ _ two, rotl32_xor _ _ two, rotl32_rotl32 b (show 8 + 2 < 32 by decide),
    rotl32_rotl32 b (show 16 + 2 < 32 by decide)]

@[simp] theorem vl_get (v : Vec) (l : Fin 4) : (vl v).get l = diffuse (v.get l) := by rw [vl_eq, Quad.get_map]

/-- Settles O41: rotation distributes over XOR and rotations add, and both vector forms are L on each lane. -/
theorem vectorDiffusion : Obligations.VectorDiffusion := by
  refine ⟨fun b => ⟨rotl32_xor_rotl32_8_16 b, diffuseFactored_eq b⟩, fun v l => ⟨vl_get v l, ?_⟩⟩
  rw [vlSeparate_eq, vl_get]

end Sys2Proof
end

section
/-! The checks of a command and their order (46_size_validator.md R230 to R233, 60_exceptions.md R250). Which check fails
first depends on OP and LEN alone, beside the state, so a command that fails one is answered without its payload. -/

namespace Sys2Proof.Machine

open Sys2Proof.Safety

/-- The answer of the first check of R250 that a command of this OP and length fails, if it fails one. -/
def failedCheck (s : State) (op : Byte) (length : Nat) : Option Response :=
  if op.toNat = 0 ∨ 6 ≤ op.toNat ∨ (op.toNat = 5 ∧ s.cfg.hasDec4 = false) then some .illegalCommand
  else if op.toNat ≠ 1 ∧ s.keyValid = false then some .noKey
  else if op.toNat = 1 ∧ length ≠ 16 then some (.invalidKeySize 16)
  else if (op.toNat = 2 ∨ op.toNat = 3) ∧ length ≠ 16 then some (.invalidBlockSize 16)
  else if (op.toNat = 4 ∨ op.toNat = 5) ∧ length ≠ 64 then some (.invalidBlockSize 64)
  else none

theorem failedCheck_of_reserved {op : Byte} (reserved : op.toNat = 0 ∨ 6 ≤ op.toNat) (s : State) (length : Nat) :
    failedCheck s op length = some .illegalCommand :=
  if_pos (reserved.imp_right .inl)

/-- Of the five commands only SM4.DEC4 can be absent, and the length check is the size validator's (R230). -/
theorem failedCheck_opcode (s : State) (i : Instr) :
    failedCheck s i.opcode i.payload.length =
      if i.opcode = 0x05 ∧ s.cfg.hasDec4 = false then some .illegalCommand
      else if i.isTransform = true ∧ s.keyValid = false then some .noKey
      else validate i := by
  cases i
  all_goals
    simp [failedCheck, Instr.opcode, Instr.payload, Instr.isTransform]
    rfl

/-- The command exists, has the instance it needs, and its length is right. -/
structure PassesChecks (s : State) (i : Instr) : Prop where
  present : ¬(i.opcode = 0x05 ∧ s.cfg.hasDec4 = false)
  hasKey : ¬(i.isTransform = true ∧ s.keyValid = false)
  length : validate i = none

theorem failedCheck_eq_none_iff {s : State} {i : Instr} :
    failedCheck s i.opcode i.payload.length = none ↔ PassesChecks s i := by
  rw [failedCheck_opcode]
  constructor
  · intro h
    split_ifs at h with absent noKey
    exact ⟨absent, noKey, h⟩
  · intro ⟨present, key, length⟩
    rw [if_neg present, if_neg key, length]

/-- A command the core does not have is SM4.DEC4 (R247). -/
theorem exec_of_absent {s : State} {i : Instr} (op : i.opcode = 0x05) (absent : s.cfg.hasDec4 = false) :
    exec i s = .next (respond .illegalCommand s) := by
  cases i with
  | dec4 p => simp [exec, execDec4, absent, raise]
  | setkey | enc | dec | enc4 => cases op

/-- A transform the core has is checked work. -/
theorem exec_eq_transform {s : State} {i : Instr} (isTransform : i.isTransform = true)
    (present : ¬(i.opcode = 0x05 ∧ s.cfg.hasDec4 = false)) : ∃ body, exec i s = transform i body s := by
  cases i with
  | setkey p => cases isTransform
  | enc p => exact ⟨_, rfl⟩
  | dec p => exact ⟨_, rfl⟩
  | enc4 p => exact ⟨_, rfl⟩
  | dec4 p => exact ⟨_, if_pos (by simpa [Instr.opcode] using present)⟩

/-- Under the other checks, a wrong length is answered with the size validator's error (R231). -/
theorem exec_of_invalid {s : State} {i : Instr} {r : Response} (present : ¬(i.opcode = 0x05 ∧ s.cfg.hasDec4 = false))
    (key : ¬(i.isTransform = true ∧ s.keyValid = false)) (invalid : validate i = some r) :
    exec i s = .next (respond r s) := by
  cases isTransform : i.isTransform with
  | false =>
    cases i with
    | setkey p =>
      show execSetkey p s = _
      rw [execSetkey, validated_of_some invalid]
    | enc | dec | enc4 | dec4 => cases isTransform
  | true =>
    obtain ⟨body, checked⟩ := exec_eq_transform isTransform present
    rw [checked, transform_with_key (by simpa [isTransform] using key), validated_of_some invalid]

/-- A command that fails a check gives the answer of the first one it fails, and changes nothing else (R250, R251). -/
theorem exec_of_failedCheck {s : State} {i : Instr} {r : Response}
    (fails : failedCheck s i.opcode i.payload.length = some r) : exec i s = .next (respond r s) := by
  rw [failedCheck_opcode] at fails
  split_ifs at fails with absent noKey
  · cases fails
    exact exec_of_absent absent.1 absent.2
  · cases fails
    obtain ⟨body, checked⟩ := exec_eq_transform noKey.1 absent
    rw [checked, transform_without_key noKey.2]
  · exact exec_of_invalid absent noKey fails

/-- A command that passes its checks is answered OK, where the capability cache is honest. -/
theorem exec_of_passesChecks {s : State} {i : Instr} (truthful : CacheTruthful s) (passes : PassesChecks s i) :
    ∃ t out, exec i s = .next t ∧ t.responses = s.responses ++ [.ok out] := by
  obtain ⟨t, completes, responses⟩ := exec_answers i truthful
  have outcome := exec_outcome i s
  rw [completes] at outcome
  cases outcome with
  | error r _ _ why =>
    rcases why with ⟨_, ⟨p, rfl⟩, absent⟩ | ⟨_, isTransform, noKey⟩ | invalid
    · exact absurd ⟨rfl, absent⟩ passes.present
    · exact absurd ⟨isTransform, noKey⟩ passes.hasKey
    · cases passes.length.symm.trans invalid
  | key => exact ⟨_, [], completes, rfl⟩
  | output _ _ _ out => exact ⟨_, out, completes, rfl⟩

/-- Commands of one OP and one length have one outcome if they fail a check (R233). -/
theorem exec_eq_of_not_passesChecks {s : State} {i j : Instr} (op : i.opcode = j.opcode)
    (length : i.payload.length = j.payload.length) (fails : ¬PassesChecks s i) : exec i s = exec j s := by
  obtain ⟨r, hr⟩ := Option.ne_none_iff_exists'.mp (mt failedCheck_eq_none_iff.mp fails)
  have hr' : failedCheck s j.opcode j.payload.length = some r := by rw [← op, ← length, hr]
  rw [exec_of_failedCheck hr, exec_of_failedCheck hr']

/-- A transform of a wrong length or without an instance does not pass. -/
theorem not_passesChecks_of_transform {s : State} {i : Instr} (isTransform : i.isTransform = true)
    (fails : validate i ≠ none ∨ s.keyValid = false) : ¬PassesChecks s i := fun passes =>
  fails.elim (· passes.length) fun noKey => passes.hasKey ⟨isTransform, noKey⟩

section
variable {s : State} {op : Byte} {payload : List Byte} {rest : List HostMove} (length : payload.length ≤ 255)
  (move : s.host = .command (op :: BitVec.ofNat 8 payload.length :: payload) :: rest)
include length move

/-- A presented frame is the command its OP selects. -/
theorem step_of_selectOp_some {i : Instr} (selected : selectOp op payload = some i) :
    step s = exec i { s with host := rest } :=
  stepRunsTheCommand s _ rest i move <|
    decode_of_selectOp_some (by simpa using splitFrame_of_length op payload [] length) selected

/-- A presented frame of a reserved OP is answered IllegalCommand (R88). -/
theorem step_of_selectOp_none (reserved : selectOp op payload = none) :
    step s = .next (respond .illegalCommand { s with host := rest }) := by
  have decoded := decode_of_selectOp_none (by simpa using splitFrame_of_length op payload [] length) reserved
  simp only [step, accept_of_command move, acceptCommand, decoded]

/-- A presented frame that fails a check is answered by the first one it fails (R250). -/
theorem step_of_failedCheck {r : Response} (fails : failedCheck s op payload.length = some r) :
    step s = .next (respond r { s with host := rest }) := by
  match selected : selectOp op payload with
  | none =>
    rw [failedCheck_of_reserved (selectOp_eq_none_iff.mp selected)] at fails
    cases fails
    exact step_of_selectOp_none length move selected
  | some i =>
    obtain ⟨rfl, rfl⟩ := selectOp_some selected
    rw [step_of_selectOp_some length move selected]
    exact exec_of_failedCheck fails

theorem step_of_failedCheck_eq_none (truthful : CacheTruthful s) (passes : failedCheck s op payload.length = none) :
    ∃ t out, step s = .next t ∧ t.host = rest ∧ t.responses = s.responses ++ [.ok out] := by
  match selected : selectOp op payload with
  | none =>
    rw [failedCheck_of_reserved (selectOp_eq_none_iff.mp selected)] at passes
    cases passes
  | some i =>
    obtain ⟨rfl, rfl⟩ := selectOp_some selected
    obtain ⟨t, out, completes, responses⟩ :=
      exec_of_passesChecks (s := { s with host := rest }) truthful (failedCheck_eq_none_iff.mp passes)
    exact ⟨t, out, (step_of_selectOp_some length move selected).trans completes, exec_keeps_host completes, responses⟩

end

/-- Settles O21: the statement's cases are those of `failedCheck`, in their order. -/
theorem checksInOrder : Obligations.ChecksInOrder := by
  intro s op payload rest truthful length move
  have fails {r : Response} := step_of_failedCheck length move (r := r)
  split_ifs with illegal noKey key block batch
  · exact fails (if_pos illegal)
  · exact fails (by rw [failedCheck, if_neg illegal, if_pos noKey])
  · exact fails (by rw [failedCheck, if_neg illegal, if_neg noKey, if_pos key])
  · exact fails (by rw [failedCheck, if_neg illegal, if_neg noKey, if_neg key, if_pos block])
  · exact fails (by rw [failedCheck, if_neg illegal, if_neg noKey, if_neg key, if_neg block, if_pos batch])
  · exact step_of_failedCheck_eq_none length move truthful
      (by rw [failedCheck, if_neg illegal, if_neg noKey, if_neg key, if_neg block, if_neg batch])

/-- Settles O58: each of the reasons is a check not passed. -/
theorem failedPayloadIsIgnored : Obligations.FailedPayloadIsIgnored := by
  intro p q s same
  refine ⟨fun wrong => exec_eq_of_not_passesChecks rfl same fun passes => wrong (check_passes passes.length),
    fun fails => ⟨?_, ?_⟩, fun fails => ?_, fun fails => ?_⟩
  · exact exec_eq_of_not_passesChecks rfl same (not_passesChecks_of_transform rfl (fails.imp_left (mt check_passes)))
  · exact exec_eq_of_not_passesChecks rfl same (not_passesChecks_of_transform rfl (fails.imp_left (mt check_passes)))
  · exact exec_eq_of_not_passesChecks rfl same (not_passesChecks_of_transform rfl (fails.imp_left (mt check_passes)))
  · refine exec_eq_of_not_passesChecks rfl same ?_
    rcases or_assoc.mpr fails with checked | absent
    · exact not_passesChecks_of_transform rfl (checked.imp_left (mt check_passes))
    · exact fun passes => passes.present ⟨rfl, absent⟩

end Sys2Proof.Machine
end

section
/-! A command answered with an error (60_exceptions.md R241, R242, R246, R247, R251). -/

namespace Sys2Proof.Machine

open Sys2Proof.Safety

/-- A command whose new response is an error gives that response, changes nothing else, and has one of three reasons. -/
theorem exec_error {i : Instr} {s t : State} {r : Response} (h : exec i s = .next t)
    (answered : t.responses = s.responses ++ [r]) (error : isError r = true) :
    t = respond r s ∧
      ((r = .illegalCommand ∧ (∃ p, i = .dec4 p) ∧ s.cfg.hasDec4 = false) ∨
        (r = .noKey ∧ i.isTransform = true ∧ s.keyValid = false) ∨ validate i = some r) := by
  have outcome := exec_outcome i s
  rw [h] at outcome
  cases outcome with
  | error r' _ _ why =>
    obtain rfl : r' = r := by simpa using answered
    exact ⟨rfl, why⟩
  | key =>
    obtain rfl : .ok [] = r := by simpa using answered
    cases error
  | output _ _ _ out =>
    obtain rfl : .ok out = r := by simpa using answered
    cases error

/-- Settles O56: of the outcomes a command can have, only an error carries an error. -/
theorem failedCommandChangesNothing : Obligations.FailedCommandChangesNothing :=
  fun _ _ _ _ h answered error => (exec_error h answered error).1

/-- A size error comes from the size validator: the other two reasons give other responses. -/
theorem validate_of_exec_sizeError {i : Instr} {s t : State} {r : Response} (h : exec i s = .next t)
    (answered : t.responses = s.responses ++ [r]) (error : isError r = true)
    (size : r ≠ .illegalCommand ∧ r ≠ .noKey) : validate i = some r := by
  obtain ⟨_, ⟨illegal, _⟩ | ⟨noKey, _⟩ | invalid⟩ := exec_error h answered error
  · exact absurd illegal size.1
  · exact absurd noKey size.2
  · exact invalid

theorem validate_eq_invalidKeySize {i : Instr} {n : Nat} (h : validate i = some (.invalidKeySize n)) :
    ∃ p : List Byte, i = .setkey p ∧ p.length ≠ 16 ∧ n = 16 := by
  rcases validate_some h with ⟨p, rfl, length, same⟩ | ⟨_, _, _, _, other⟩
  · cases same
    exact ⟨p, rfl, length, rfl⟩
  · cases other

theorem validate_eq_invalidBlockSize {i : Instr} {n : Nat} (h : validate i = some (.invalidBlockSize n)) :
    (∃ p : List Byte, (i = .enc p ∨ i = .dec p) ∧ p.length ≠ 16 ∧ n = 16) ∨
      ∃ p : List Byte, (i = .enc4 p ∨ i = .dec4 p) ∧ p.length ≠ 64 ∧ n = 64 := by
  cases i with
  | setkey p => cases (check_raises h).2
  | enc p => obtain ⟨length, same⟩ := check_raises h; cases same; exact .inl ⟨p, .inl rfl, length, rfl⟩
  | dec p => obtain ⟨length, same⟩ := check_raises h; cases same; exact .inl ⟨p, .inr rfl, length, rfl⟩
  | enc4 p => obtain ⟨length, same⟩ := check_raises h; cases same; exact .inr ⟨p, .inl rfl, length, rfl⟩
  | dec4 p => obtain ⟨length, same⟩ := check_raises h; cases same; exact .inr ⟨p, .inr rfl, length, rfl⟩

/-- Settles O24: a wrong length is answered so by SM4.SETKEY, and only its length check gives that answer. -/
theorem invalidKeySizeRule : Obligations.InvalidKeySizeRule :=
  ⟨fun _ s length => exec_setkey_of_length_ne length s,
    fun _ _ _ _ h answered => validate_eq_invalidKeySize (validate_of_exec_sizeError h answered rfl ⟨nofun, nofun⟩), rfl⟩

theorem exec_blockCommand_of_length_ne (d : Dir) {p : List Byte} {s : State} (key : s.keyValid = true)
    (length : p.length ≠ 16) : exec (blockCommand d p) s = .next (respond (.invalidBlockSize 16) s) := by
  have invalid : validate (blockCommand d p) = some (.invalidBlockSize 16) := by
    cases d with
    | enc => exact if_neg length
    | dec => exact if_neg length
  rw [exec_blockCommand, transform_with_key key, validated_of_some invalid]

theorem exec_batchCommand_of_length_ne {d : Dir} {p : List Byte} {s : State} (present : HasBatchCommand s d)
    (key : s.keyValid = true) (length : p.length ≠ 64) :
    exec (batchCommand d p) s = .next (respond (.invalidBlockSize 64) s) := by
  have invalid : validate (batchCommand d p) = some (.invalidBlockSize 64) := by
    cases d with
    | enc => exact if_neg length
    | dec => exact if_neg length
  rw [exec_batchCommand present, transform_with_key key, validated_of_some invalid]

/-- Settles O34: a wrong length is answered so by each transform, and only their length check gives that answer. -/
theorem invalidBlockSizeRule : Obligations.InvalidBlockSizeRule := by
  refine ⟨fun p s key length => ⟨?_, ?_⟩, fun p s key length => ⟨?_, fun present => ?_⟩,
    fun i s t n h answered => ?_, rfl, rfl⟩
  · exact exec_blockCommand_of_length_ne .enc key length
  · exact exec_blockCommand_of_length_ne .dec key length
  · exact exec_batchCommand_of_length_ne (d := .enc) trivial key length
  · exact exec_batchCommand_of_length_ne (d := .dec) present key length
  · exact validate_eq_invalidBlockSize (validate_of_exec_sizeError h answered rfl ⟨nofun, nofun⟩)

theorem exec_blockCommand_without_key (d : Dir) (p : List Byte) {s : State} (noKey : s.keyValid = false) :
    exec (blockCommand d p) s = .next (respond .noKey s) := by
  rw [exec_blockCommand, transform_without_key noKey]

theorem exec_batchCommand_without_key {d : Dir} (p : List Byte) {s : State} (present : HasBatchCommand s d)
    (noKey : s.keyValid = false) : exec (batchCommand d p) s = .next (respond .noKey s) := by
  rw [exec_batchCommand present, transform_without_key noKey]

/-- Settles O35: the instance is the first check of every transform the core has. -/
theorem transformWithoutKey : Obligations.TransformWithoutKey := fun p _ noKey =>
  ⟨exec_blockCommand_without_key .enc p noKey, exec_blockCommand_without_key .dec p noKey,
    exec_batchCommand_without_key (d := .enc) p trivial noKey,
    fun present => exec_batchCommand_without_key (d := .dec) p present noKey⟩

/-- Settles O48: a command the core does not have is answered before its checks. -/
theorem dec4Absent : Obligations.Dec4Absent := fun _ _ absent => exec_of_absent rfl absent

/-- Settles O17: a frame whose OP selects no command is answered with the move taken. -/
theorem reservedOpIsAnswered : Obligations.ReservedOpIsAnswered := fun _ _ _ _ length reserved move =>
  step_of_selectOp_none length move (selectOp_eq_none_iff.mpr reserved)

end Sys2Proof.Machine
end

section
/-! The one refusal (70_reset_and_hazards.md R277, 93_implementation_defined.md U6). -/

namespace Sys2Proof.Machine

theorem capAnswer_of_cached {s : State} {answer : CapSet} (isCached : s.cfg.capCached = true)
    (cached : s.capCache = some answer) : capAnswer s = answer := by
  simp [capAnswer, isCached, cached]

/-- A batch that a stale cached answer sends to the accelerated path is refused. -/
theorem exec_batchCommand_of_stale {d : Dir} {p : List Byte} {s : State} (present : HasBatchCommand s d)
    (key : s.keyValid = true) (length : p.length = 64) (answer : capAnswer s = allCaps) (lacking : s.cfg.cap ≠ allCaps) :
    exec (batchCommand d p) s = .refused .staleCapability := by
  rw [exec_batchCommand present, transform_with_key key, validated_of_none (validate_batchCommand d length), crypt4,
    if_pos answer, if_neg lacking]

/-- Settles O51: the stale batch is refused, and it is the only outcome of a command that is not a next state. -/
theorem onlyStaleCapabilityRefused : Obligations.OnlyStaleCapabilityRefused := by
  refine ⟨fun p s key length isCached cached lacking => ?_, fun i s => ?_⟩
  · have answer : capAnswer s = allCaps := capAnswer_of_cached isCached cached
    exact ⟨exec_batchCommand_of_stale (d := .enc) trivial key length answer lacking,
      fun present => exec_batchCommand_of_stale (d := .dec) present key length answer lacking⟩
  · have outcome := exec_outcome i s
    generalize exec i s = result at outcome ⊢
    cases outcome with
    | error => exact .inl ⟨_, rfl⟩
    | key => exact .inl ⟨_, rfl⟩
    | output => exact .inl ⟨_, rfl⟩
    | stale p batch length key isCached cached lacking =>
      exact .inr ⟨rfl, ⟨p, batch, length⟩, key, isCached, cached, lacking⟩

end Sys2Proof.Machine
end

section
/-! The step on either kind of reset (70_reset_and_hazards.md R270, 93_implementation_defined.md U10). -/

namespace Sys2Proof.Machine

theorem step_of_resetDuring {s : State} {bytes : List Byte} {rest : List HostMove}
    (h : s.host = .resetDuring bytes :: rest) : step s = .next (resetEvent { s with host := rest }) := by
  simp only [step, accept, h]

theorem step_of_reset_or_resetDuring {s : State} {rest : List HostMove}
    (h : s.host = .reset :: rest ∨ ∃ bytes, s.host = .resetDuring bytes :: rest) :
    step s = .next (resetEvent { s with host := rest }) :=
  h.elim step_of_reset fun ⟨_, during⟩ => step_of_resetDuring during

/-- Reset keeps nothing but the parameters, the moves and the responses. -/
theorem resetEvent_congr {s t : State} (cfg : s.cfg = t.cfg) (host : s.host = t.host)
    (responses : s.responses = t.responses) : resetEvent s = resetEvent t := by
  simp only [resetEvent, cfg, host, responses]

end Sys2Proof.Machine

namespace Sys2Proof

open Sys2Proof.Machine

/-- Settles O18: on either kind of reset the step is the reset event, of whose fields only the parameters, the moves and
the responses come from the state before. -/
theorem resetEvent : Obligations.ResetEvent := by
  refine ⟨fun s rest move => ⟨_, step_of_reset_or_resetDuring move, rfl, rfl, rfl, rfl, rfl⟩, ?_⟩
  intro s s' rest move host cfg responses
  have move' : s'.host = .reset :: rest ∨ ∃ bytes, s'.host = .resetDuring bytes :: rest := by rwa [host]
  rw [step_of_reset_or_resetDuring move, step_of_reset_or_resetDuring move']
  exact congrArg _ (resetEvent_congr cfg rfl responses)

end Sys2Proof
end

section
/-! The idle core, the two stuck moves, and the step after `withFetchWord` (70_reset_and_hazards.md R271, R275,
30_encoding.md R82). -/

namespace Sys2Proof.Machine

theorem step_of_idle {s : State} (h : s.host = []) : step s = .next s := by
  simp only [step, accept, h]

theorem step_of_stuck {s : State} {f : Fault} (h : accept s = .stuck f) : step s = .fault f := by
  simp only [step, h]

/-- Settles O20: no move leaves the core idle, and the framing of a presented command finds the two stuck moves. -/
theorem idleAndStuckSteps : Obligations.IdleAndStuckSteps := by
  refine ⟨fun _ => step_of_idle, fun s bytes rest move decoded => ?_, fun s bytes rest i b more move decoded => ?_⟩
  · exact step_of_stuck (by simp only [accept_of_command move, acceptCommand, decoded])
  · exact step_of_stuck (by simp only [accept_of_command move, acceptCommand, decoded])

/-- The bytes of a presentable command are cut off by its own header, whatever follows them. -/
theorem take_encode_append {i : Instr} (presentable : WellFormed i) (rest : List Byte) :
    (encode i ++ rest).take (2 + ((encode i ++ rest).getD 1 0).toNat) = encode i := by
  have fits : i.payload.length < 2 ^ 8 := Nat.lt_succ_of_le presentable
  have len : ((encode i ++ rest).getD 1 0).toNat = i.payload.length := Nat.mod_eq_of_lt fits
  exact List.take_left' (by rw [(Laws.Framing.of_instr i presentable).1, len])

/-- The bytes presented for a table word are exactly those of the command read from it. -/
theorem tableCommand_eq_encode {nbits w : Nat} {i : Instr} (h : decodeTableWord nbits w = some i) :
    tableCommand nbits w = encode i ∧ WellFormed i := by
  unfold decodeTableWord at h
  split at h
  · next j rest decoded =>
    cases h
    obtain ⟨bytes, presentable⟩ := encodeDecodeRoundTrip _ _ _ decoded
    refine ⟨?_, presentable⟩
    rw [tableCommand, ← bytes]
    exact take_encode_append presentable rest
  · cases h
  · cases h

/-- Settles O16: the move put in front presents the command's own bytes, and the step runs it with that move taken. -/
theorem tableWordRunsNext : Obligations.TableWordRunsNext := by
  intro s nbits w i h
  obtain ⟨bytes, presentable⟩ := tableCommand_eq_encode h
  have decoded : decode (encode i) = .command i [] := by
    simpa using decodeEncodeRoundTrip i [] presentable
  exact stepRunsTheCommand _ (tableCommand nbits w) s.host i rfl (bytes ▸ decoded)

end Sys2Proof.Machine
end

section
/-! Reading a command back from its text (30_encoding.md R92). -/

namespace Sys2Proof

theorem idxOf?_hexDigits : ∀ n < 16, hexDigits.idxOf? (hexDigits.getD n '0') = some n := by decide

/-- Two digits a byte, the high one first, are read back byte by byte. -/
theorem parseHex_hexText (bytes : List Byte) : parseHex (hexText bytes) = some bytes := by
  induction bytes with
  | nil => rfl
  | cons b bytes ih =>
    have high := idxOf?_hexDigits (b.toNat / 16) (by omega)
    have low := idxOf?_hexDigits (b.toNat % 16) (by omega)
    have join : BitVec.ofNat 8 (16 * (b.toNat / 16) + b.toNat % 16) = b := by
      rw [Nat.div_add_mod, BitVec.ofNat_toNat, BitVec.setWidth_eq]
    show parseHex (_ :: _ :: hexText bytes) = _
    rw [parseHex, high, low, ih]
    exact congrArg (fun c => some (c :: bytes)) join

theorem mnemonic_ne_space (i : Instr) : i.mnemonic.all (· ≠ ' ') = true := by
  cases i <;> rfl

theorem namedCommand_mnemonic (i : Instr) : namedCommand i.mnemonic i.payload = some i := by
  cases i <;> rfl

/-- Settles O14: the first space parts the mnemonic, which holds none, from the payload's digits. -/
theorem assemblerRoundTrip : Obligations.AssemblerRoundTrip := by
  intro i
  have noSpace := List.all_eq_true.mp (mnemonic_ne_space i)
  have name : (disassemble i).takeWhile (· ≠ ' ') = i.mnemonic := by
    rw [disassemble, List.takeWhile_append_of_pos noSpace, List.takeWhile_cons_of_neg (by simp), List.append_nil]
  have digits : ((disassemble i).dropWhile (· ≠ ' ')).drop 1 = hexText i.payload := by
    rw [disassemble, List.dropWhile_append_of_pos noSpace, List.dropWhile_cons_of_neg (by simp), List.drop_one, List.tail_cons]
  simp only [assemble, name, digits, parseHex_hexText, namedCommand_mnemonic]

end Sys2Proof
end

section
/-! The source's own vector (95_test_vectors.md V1, V2). -/

namespace Sys2Proof.Safety

open Sys2Proof.Machine

/-- The bytes of V1, its key and its block. -/
def sourceVector : List Byte :=
  [0x01, 0x23, 0x45, 0x67, 0x89, 0xab, 0xcd, 0xef, 0xfe, 0xdc, 0xba, 0x98, 0x76, 0x54, 0x32, 0x10]

theorem roundKeys_sourceVector :
    (roundKeys sourceVector)[0] = 0xf12186f9 ∧ (roundKeys sourceVector)[31] = 0x9124a012 := by
  decide +kernel

theorem cipher_sourceVector : cipher (roundKeys sourceVector) .enc sourceVector =
    [0x68, 0x1e, 0xdf, 0x34, 0xd2, 0x06, 0x96, 0x5e, 0x86, 0xb3, 0xe9, 0x4f, 0x53, 0x6e, 0x42, 0x46] := by
  decide +kernel

/-- Settles O31: both commands complete with what the sliding forms give, and those are evaluated on the vector. -/
theorem sourceKnownAnswers : Obligations.SourceKnownAnswers := by
  obtain ⟨t, setkey, key, rk, responsesT, _⟩ := setkeyCompletes sourceVector State.reset rfl
  obtain ⟨u, enc, responsesU, _⟩ := encCompletes sourceVector t key rfl
  obtain ⟨first, last⟩ := roundKeys_sourceVector
  rw [responsesT, rk, cipher_sourceVector] at responsesU
  exact ⟨t, u, setkey, by rw [rk]; exact first, by rw [rk]; exact last, enc, responsesU⟩

end Sys2Proof.Safety
end
